-- ==== Sys2Proof/Word.lean ====
section
/-! DEFINITION. The word types of the core (spec/00_scope.md R8, R9): every value is unsigned. -/

namespace Sys2Proof

/-- One memory cell or general register: 8 bits (spec/20 R50, spec/10 R21). -/
abbrev Byte := BitVec 8

/-- An instruction word, `I`, `PC`, a stack entry, the keypad: 16 bits (spec/30 R80, spec/10 R20). -/
abbrev Word := BitVec 16

/-- A 4-bit field of an instruction word (spec/00 R9). -/
abbrev Nibble := BitVec 4

/-- A 12-bit address field (spec/30 R81). -/
abbrev Addr := BitVec 12

/-- The name of a general register, V0 to VF (spec/10 R21), or of a key (spec/10 R32): 0 to 15. -/
abbrev Reg := Fin 16

/-- VF, the flag register (spec/10 R22). -/
abbrev regF : Reg := 15

end Sys2Proof
end

