-- ==== Sys2Proof/Syntax.lean ====
section
/-! DEFINITION. The 35 instruction forms (spec/30_encoding.md R85), one constructor per row of spec/opcode_table.json,
in opcode order. `x` and `y` are register indices, `nn` an 8-bit and `nnn` a 12-bit immediate, `n` a row count
(spec/30 R81). -/

namespace Sys2Proof

/-- A decoded instruction (spec/10 R38). -/
inductive Instr where
  /-- `0NNN`, SYS NNN. -/
  | sys (nnn : Addr)
  /-- `00E0`, CLS. -/
  | cls
  /-- `00EE`, RET. -/
  | ret
  /-- `1NNN`, JP NNN. -/
  | jp (nnn : Addr)
  /-- `2NNN`, CALL NNN. -/
  | call (nnn : Addr)
  /-- `3XNN`, SE VX, NN. -/
  | seI (x : Reg) (nn : Byte)
  /-- `4XNN`, SNE VX, NN. -/
  | sneI (x : Reg) (nn : Byte)
  /-- `5XY0`, SE VX, VY. -/
  | seR (x y : Reg)
  /-- `6XNN`, LD VX, NN. -/
  | ldI8 (x : Reg) (nn : Byte)
  /-- `7XNN`, ADD VX, NN. -/
  | addI8 (x : Reg) (nn : Byte)
  /-- `8XY0`, LD VX, VY. -/
  | ldR (x y : Reg)
  /-- `8XY1`, OR VX, VY. -/
  | orR (x y : Reg)
  /-- `8XY2`, AND VX, VY. -/
  | andR (x y : Reg)
  /-- `8XY3`, XOR VX, VY. -/
  | xorR (x y : Reg)
  /-- `8XY4`, ADD VX, VY. -/
  | addR (x y : Reg)
  /-- `8XY5`, SUB VX, VY. -/
  | sub (x y : Reg)
  /-- `8XY6`, SHR VX, VY. -/
  | shr (x y : Reg)
  /-- `8XY7`, SUBN VX, VY. -/
  | subn (x y : Reg)
  /-- `8XYE`, SHL VX, VY. -/
  | shl (x y : Reg)
  /-- `9XY0`, SNE VX, VY. -/
  | sneR (x y : Reg)
  /-- `ANNN`, LD I, NNN. -/
  | ldIdx (nnn : Addr)
  /-- `BNNN`, JP V0, NNN. -/
  | jpV0 (nnn : Addr)
  /-- `CXNN`, RND VX, NN. -/
  | rnd (x : Reg) (nn : Byte)
  /-- `DXYN`, DRW VX, VY, N. -/
  | drw (x y : Reg) (n : Nibble)
  /-- `EX9E`, SKP VX. -/
  | skp (x : Reg)
  /-- `EXA1`, SKNP VX. -/
  | sknp (x : Reg)
  /-- `FX07`, LD VX, DT. -/
  | ldVxDt (x : Reg)
  /-- `FX0A`, LD VX, K. -/
  | ldVxK (x : Reg)
  /-- `FX15`, LD DT, VX. -/
  | ldDtVx (x : Reg)
  /-- `FX18`, LD ST, VX. -/
  | ldStVx (x : Reg)
  /-- `FX1E`, ADD I, VX. -/
  | addIdx (x : Reg)
  /-- `FX29`, LD F, VX. -/
  | ldF (x : Reg)
  /-- `FX33`, LD B, VX. -/
  | ldB (x : Reg)
  /-- `FX55`, LD [I], VX. -/
  | stRegs (x : Reg)
  /-- `FX65`, LD VX, [I]. -/
  | ldRegs (x : Reg)
  deriving DecidableEq, Repr

end Sys2Proof
end

