-- ==== Sys2Proof/WellFormed.lean ====
section
/-! DEFINITION. Which instructions have an encoding. The field types carry every range (spec/30 R81, R91: no register
index is illegal); the one relation left is that `0NNN` is not `00E0` or `00EE` (spec/30 R84, R85 row 1). -/

namespace Sys2Proof

/-- The instruction is one the decoder can answer. -/
def Instr.wf : Instr → Bool
  | .sys nnn => decide (nnn ≠ 0x0E0#12) && decide (nnn ≠ 0x0EE#12)
  | .cls => true
  | .ret => true
  | .jp _ => true
  | .call _ => true
  | .seI _ _ => true
  | .sneI _ _ => true
  | .seR _ _ => true
  | .ldI8 _ _ => true
  | .addI8 _ _ => true
  | .ldR _ _ => true
  | .orR _ _ => true
  | .andR _ _ => true
  | .xorR _ _ => true
  | .addR _ _ => true
  | .sub _ _ => true
  | .shr _ _ => true
  | .subn _ _ => true
  | .shl _ _ => true
  | .sneR _ _ => true
  | .ldIdx _ => true
  | .jpV0 _ => true
  | .rnd _ _ => true
  | .drw _ _ _ => true
  | .skp _ => true
  | .sknp _ => true
  | .ldVxDt _ => true
  | .ldVxK _ => true
  | .ldDtVx _ => true
  | .ldStVx _ => true
  | .addIdx _ => true
  | .ldF _ => true
  | .ldB _ => true
  | .stRegs _ => true
  | .ldRegs _ => true

end Sys2Proof
end

