-- ==== Sys2Proof/Decode.lean ====
section
/-! DEFINITION. The instruction_decoder (spec/30_encoding.md): the fields of a word, the decoder, and the encoder written
from the same tables. -/

namespace Sys2Proof

/-- What the decoder answers for a word (spec/30 R84). -/
inductive Decoded where
  /-- One of the 35 forms. -/
  | form (i : Instr)
  /-- `Unknown`: an illegal word (spec/30 R86). -/
  | unknown
  deriving DecidableEq, Repr

/-- The major opcode nibble `w[15:12]` (spec/30 R81). -/
def fieldO (w : Word) : Nibble := w.extractLsb' 12 4

/-- `X = w[11:8]` (spec/30 R81). -/
def fieldX (w : Word) : Reg := (w.extractLsb' 8 4).toFin

/-- `Y = w[7:4]` (spec/30 R81). -/
def fieldY (w : Word) : Reg := (w.extractLsb' 4 4).toFin

/-- `N = w[3:0]` (spec/30 R81). -/
def fieldN (w : Word) : Nibble := w.extractLsb' 0 4

/-- `NN = w[7:0]` (spec/30 R81). -/
def fieldNN (w : Word) : Byte := w.extractLsb' 0 8

/-- `NNN = w[11:0]` (spec/30 R81). -/
def fieldNNN (w : Word) : Addr := w.extractLsb' 0 12

/-- The forms of nibble 0: `00E0` and `00EE` before `0NNN` (spec/30 R84). -/
def decode0 (w : Word) : Decoded :=
  if w = 0x00E0#16 then .form .cls
  else if w = 0x00EE#16 then .form .ret
  else .form (.sys (fieldNNN w))

/-- The register-register forms of nibble 8, by `N` (spec/30 R84). -/
def decode8 (w : Word) : Decoded :=
  match (fieldN w).toNat with
  | 0x0 => .form (.ldR (fieldX w) (fieldY w))
  | 0x1 => .form (.orR (fieldX w) (fieldY w))
  | 0x2 => .form (.andR (fieldX w) (fieldY w))
  | 0x3 => .form (.xorR (fieldX w) (fieldY w))
  | 0x4 => .form (.addR (fieldX w) (fieldY w))
  | 0x5 => .form (.sub (fieldX w) (fieldY w))
  | 0x6 => .form (.shr (fieldX w) (fieldY w))
  | 0x7 => .form (.subn (fieldX w) (fieldY w))
  | 0xE => .form (.shl (fieldX w) (fieldY w))
  | _ => .unknown

/-- The key skips of nibble E, by `NN` (spec/30 R84). -/
def decodeE (w : Word) : Decoded :=
  match (fieldNN w).toNat with
  | 0x9E => .form (.skp (fieldX w))
  | 0xA1 => .form (.sknp (fieldX w))
  | _ => .unknown

/-- The forms of nibble F, by `NN` (spec/30 R84). -/
def decodeF (w : Word) : Decoded :=
  match (fieldNN w).toNat with
  | 0x07 => .form (.ldVxDt (fieldX w))
  | 0x0A => .form (.ldVxK (fieldX w))
  | 0x15 => .form (.ldDtVx (fieldX w))
  | 0x18 => .form (.ldStVx (fieldX w))
  | 0x1E => .form (.addIdx (fieldX w))
  | 0x29 => .form (.ldF (fieldX w))
  | 0x33 => .form (.ldB (fieldX w))
  | 0x55 => .form (.stRegs (fieldX w))
  | 0x65 => .form (.ldRegs (fieldX w))
  | _ => .unknown

/-- `Decode` (spec/30 R84, R88): total, reading the word alone. A nibble has no value above 0xF, so the last arm is
that of nibble F. -/
def decode (w : Word) : Decoded :=
  match (fieldO w).toNat with
  | 0x0 => decode0 w
  | 0x1 => .form (.jp (fieldNNN w))
  | 0x2 => .form (.call (fieldNNN w))
  | 0x3 => .form (.seI (fieldX w) (fieldNN w))
  | 0x4 => .form (.sneI (fieldX w) (fieldNN w))
  | 0x5 => if fieldN w = 0 then .form (.seR (fieldX w) (fieldY w)) else .unknown
  | 0x6 => .form (.ldI8 (fieldX w) (fieldNN w))
  | 0x7 => .form (.addI8 (fieldX w) (fieldNN w))
  | 0x8 => decode8 w
  | 0x9 => if fieldN w = 0 then .form (.sneR (fieldX w) (fieldY w)) else .unknown
  | 0xA => .form (.ldIdx (fieldNNN w))
  | 0xB => .form (.jpV0 (fieldNNN w))
  | 0xC => .form (.rnd (fieldX w) (fieldNN w))
  | 0xD => .form (.drw (fieldX w) (fieldY w) (fieldN w))
  | 0xE => decodeE w
  | _ => decodeF w

/-- The word of two bytes, the first the more significant (spec/20 R53, R59). -/
def wordOfBytes (hi lo : Byte) : Word := hi ++ lo

/-- The first byte of a word in memory, `w[15:8]` (spec/20 R53). -/
def highByte (w : Word) : Byte := w.extractLsb' 8 8

/-- The second byte of a word in memory, `w[7:0]` (spec/20 R53). -/
def lowByte (w : Word) : Byte := w.extractLsb' 0 8

/-- The decoder on the bytes of an instruction as memory holds them. -/
def decodeBytes (hi lo : Byte) : Decoded := decode (wordOfBytes hi lo)

/-- Format `ONNN` (spec/30 R83). -/
def wordONNN (o : Nibble) (nnn : Addr) : Word := o ++ nnn

/-- Formats `OXNN` and `OXSS`, whose last byte is an immediate or a sub-opcode (spec/30 R83). -/
def wordOXNN (o : Nibble) (x : Reg) (nn : Byte) : Word := o ++ (BitVec.ofFin x : Nibble) ++ nn

/-- Formats `OXYS` and `DXYN`, whose last nibble is a sub-opcode or a row count (spec/30 R83). -/
def wordOXYN (o : Nibble) (x y : Reg) (n : Nibble) : Word :=
  o ++ (BitVec.ofFin x : Nibble) ++ (BitVec.ofFin y : Nibble) ++ n

/-- The word of an instruction, by the patterns of spec/30 R85. -/
def encode : Instr → Word
  | .sys nnn => wordONNN 0x0 nnn
  | .cls => 0x00E0#16
  | .ret => 0x00EE#16
  | .jp nnn => wordONNN 0x1 nnn
  | .call nnn => wordONNN 0x2 nnn
  | .seI x nn => wordOXNN 0x3 x nn
  | .sneI x nn => wordOXNN 0x4 x nn
  | .seR x y => wordOXYN 0x5 x y 0x0
  | .ldI8 x nn => wordOXNN 0x6 x nn
  | .addI8 x nn => wordOXNN 0x7 x nn
  | .ldR x y => wordOXYN 0x8 x y 0x0
  | .orR x y => wordOXYN 0x8 x y 0x1
  | .andR x y => wordOXYN 0x8 x y 0x2
  | .xorR x y => wordOXYN 0x8 x y 0x3
  | .addR x y => wordOXYN 0x8 x y 0x4
  | .sub x y => wordOXYN 0x8 x y 0x5
  | .shr x y => wordOXYN 0x8 x y 0x6
  | .subn x y => wordOXYN 0x8 x y 0x7
  | .shl x y => wordOXYN 0x8 x y 0xE
  | .sneR x y => wordOXYN 0x9 x y 0x0
  | .ldIdx nnn => wordONNN 0xA nnn
  | .jpV0 nnn => wordONNN 0xB nnn
  | .rnd x nn => wordOXNN 0xC x nn
  | .drw x y n => wordOXYN 0xD x y n
  | .skp x => wordOXNN 0xE x 0x9E
  | .sknp x => wordOXNN 0xE x 0xA1
  | .ldVxDt x => wordOXNN 0xF x 0x07
  | .ldVxK x => wordOXNN 0xF x 0x0A
  | .ldDtVx x => wordOXNN 0xF x 0x15
  | .ldStVx x => wordOXNN 0xF x 0x18
  | .addIdx x => wordOXNN 0xF x 0x1E
  | .ldF x => wordOXNN 0xF x 0x29
  | .ldB x => wordOXNN 0xF x 0x33
  | .stRegs x => wordOXNN 0xF x 0x55
  | .ldRegs x => wordOXNN 0xF x 0x65

/-- The word whose low `nbits` bits are those of `w`, the rest 0 (an instruction is one word, spec/30 R80). -/
def tableWord (nbits w : Nat) : Word := BitVec.ofNat 16 (w % 2 ^ nbits)

/-- The instruction the decoder reads from the bits `w` of an opcode-table row, its bytes laid out as the hardware
stores them. -/
def decodeTableWord (nbits w : Nat) : Option Instr :=
  match decodeBytes (highByte (tableWord nbits w)) (lowByte (tableWord nbits w)) with
  | .form i => some i
  | .unknown => none

/-- The bits a row of spec/opcode_table.json fixes: its `mask` column. -/
def Instr.tableMask : Instr → Word
  | .sys _ | .jp _ | .call _ | .ldIdx _ | .jpV0 _ => 0xF000
  | .cls | .ret => 0xFFFF
  | .seI _ _ | .sneI _ _ | .ldI8 _ _ | .addI8 _ _ | .rnd _ _ => 0xF000
  | .seR _ _ | .ldR _ _ | .orR _ _ | .andR _ _ | .xorR _ _ | .addR _ _ | .sub _ _ | .shr _ _ | .subn _ _
  | .shl _ _ | .sneR _ _ => 0xF00F
  | .drw _ _ _ => 0xF000
  | .skp _ | .sknp _ | .ldVxDt _ | .ldVxK _ | .ldDtVx _ | .ldStVx _ | .addIdx _ | .ldF _ | .ldB _ | .stRegs _
  | .ldRegs _ => 0xF0FF

/-- The values of those bits: the row's `match` column. -/
def Instr.tableMatch : Instr → Word
  | .sys _ => 0x0000
  | .cls => 0x00E0
  | .ret => 0x00EE
  | .jp _ => 0x1000
  | .call _ => 0x2000
  | .seI _ _ => 0x3000
  | .sneI _ _ => 0x4000
  | .seR _ _ => 0x5000
  | .ldI8 _ _ => 0x6000
  | .addI8 _ _ => 0x7000
  | .ldR _ _ => 0x8000
  | .orR _ _ => 0x8001
  | .andR _ _ => 0x8002
  | .xorR _ _ => 0x8003
  | .addR _ _ => 0x8004
  | .sub _ _ => 0x8005
  | .shr _ _ => 0x8006
  | .subn _ _ => 0x8007
  | .shl _ _ => 0x800E
  | .sneR _ _ => 0x9000
  | .ldIdx _ => 0xA000
  | .jpV0 _ => 0xB000
  | .rnd _ _ => 0xC000
  | .drw _ _ _ => 0xD000
  | .skp _ => 0xE09E
  | .sknp _ => 0xE0A1
  | .ldVxDt _ => 0xF007
  | .ldVxK _ => 0xF00A
  | .ldDtVx _ => 0xF015
  | .ldStVx _ => 0xF018
  | .addIdx _ => 0xF01E
  | .ldF _ => 0xF029
  | .ldB _ => 0xF033
  | .stRegs _ => 0xF055
  | .ldRegs _ => 0xF065

end Sys2Proof
end

