-- ==== Sys2Proof/Config.lean ====
section
/-! DEFINITION. What an instance of the core fixes, and the free values the spec leaves open (spec/10 R34, spec/93 U1, U2). -/

namespace Sys2Proof

/-- The compatibility flag `SHIFT_SRC` (spec/10 R34): which register `8XY6` and `8XYE` shift. -/
inductive ShiftSrc where
  | vx
  | vy
  deriving DecidableEq, Repr

/-- The value of `SHIFT_SRC` in an instance that names none (spec/10 R34; the spec's decision D8). -/
def Config.defaultShiftSrc : ShiftSrc := .vx

/-- The injected random generator (spec/00 R5, spec/93 U1), as draws under no law: nothing is known of
any value. DESIGN CHOICE, safe: notes/assumptions/1.md. -/
opaque Config.randomByte : Nat → Byte

end Sys2Proof
end

