-- ==== Sys2Proof/Machine/State.lean ====
section
/-! DEFINITION. The state of the core (spec/10_state.md R20), the reasons a step can stop, and the state after reset
(spec/10 R37, spec/70 R260). -/

namespace Sys2Proof.Machine

/-- Memory as the cells that differ from their reset contents, addresses rising (notes/assumptions/6.md). -/
abbrev Memory := List Host.Cell

/-- The framebuffer `FB[x][y]`, column first: 64 columns of 32 pixels, `true` for lit (spec/10 R31). -/
abbrev FrameBuffer := Vector (Vector Bool 32) 64

/-- A change of the sound-active output (spec/10 R27, spec/00 R4). -/
inductive SoundEdge where
  | none
  | on
  | off
  deriving DecidableEq, Repr

/-- The side-effect signals of a step (spec/00 R4, spec/40 R104). -/
structure Signals where
  screenDirty : Bool
  soundEdge : SoundEdge
  deriving DecidableEq, Repr

/-- What a step that commits returns (spec/40 R104, R105). -/
inductive StepResult where
  | ok (sig : Signals)
  | blocked
  deriving DecidableEq, Repr

/-- The state of the core. The first thirteen fields are the record of spec/10 R20; `shiftSrc` is the configuration
parameter of R34; the last three are the model's own: the last result (notes/assumptions/2.md) and the random input
(notes/assumptions/1.md). -/
structure State where
  /-- `MEM[0..4095]`. -/
  mem : Memory
  /-- `V[0..15]`. -/
  v : Vector Byte 16
  /-- `I`. -/
  i : Word
  /-- `PC`. -/
  pc : Word
  /-- `DT`. -/
  dt : Byte
  /-- `ST`. -/
  st : Byte
  /-- `STACK[0..15]`. -/
  stack : Vector Word 16
  /-- `SP`, 0 to 16. -/
  sp : Fin 17
  /-- `FB`. -/
  fb : FrameBuffer
  /-- `KEYS`, bit `k` for key `k`. -/
  keys : Word
  /-- `WAIT_ACTIVE`. -/
  waitActive : Bool
  /-- `WAIT_REG`. -/
  waitReg : Reg
  /-- `WAIT_PREV`, bit `k` for key `k`. -/
  waitPrev : Word
  /-- `SHIFT_SRC`, which no operation changes. -/
  shiftSrc : ShiftSrc
  /-- The model's own: what the last completed step returned. No instruction reads it. -/
  result : StepResult
  /-- The model's own: the `rnd` argument of the step about to run, where the host fixed one. -/
  rndIn : Option Byte
  /-- The model's own: how many free random bytes have been drawn. -/
  draws : Nat
  deriving DecidableEq, Repr

/-- Why a step reports a fault (spec/60 R230), each with the report's `pc` and `word`. -/
inductive Fault where
  /-- Raised by a step that fetches an illegal word (spec/60 R231). Safe: the spec gives this fault. -/
  | decodeFault (pc word : Word)
  /-- Raised by `2NNN` when `SP = 16` (spec/60 R232). Safe: the spec gives this fault. -/
  | stackOverflow (pc word : Word)
  /-- Raised by `00EE` when `SP = 0` (spec/60 R233). Safe: the spec gives this fault. -/
  | stackUnderflow (pc word : Word)
  deriving DecidableEq, Repr

/-- The fault kinds of the taxonomy (spec/60 R230). -/
inductive FaultKind where
  | decodeFault
  | stackOverflow
  | stackUnderflow
  /-- Never raised (spec/60 R234, C8). -/
  | memoryOutOfRange
  /-- A result of `load`, not of a step (spec/70 R263). -/
  | loadTooLarge
  deriving DecidableEq, Repr

/-- The report of a faulting step (spec/00 R4). -/
structure FaultReport where
  kind : FaultKind
  pc : Word
  word : Word
  deriving DecidableEq, Repr

/-- Why a step has no meaning. -/
inductive Refusal where
  /-- Answered by an arm of `exec` whose instruction is not modelled yet. Safe. No arm answers it now. -/
  | notModelled (mnemonic : String)
  deriving DecidableEq, Repr

/-- What a step or a meaning answers. -/
abbrev Outcome := Host.Outcome State Fault Refusal

/-- The signals of a step that raises none (spec/40 R104). -/
def Signals.quiet : Signals := { screenDirty := false, soundEdge := .none }

/-- The state after reset (spec/10 R37): memory with nothing listed reads as its reset contents. The last four fields
are not the spec's state (notes/assumptions/1.md, 2.md, 3.md). -/
def State.reset : State where
  mem := []
  v := Vector.replicate 16 0
  i := 0
  pc := 0x200
  dt := 0
  st := 0
  stack := Vector.replicate 16 0
  sp := 0
  fb := Vector.replicate 64 (Vector.replicate 32 false)
  keys := 0
  waitActive := false
  waitReg := 0
  waitPrev := 0
  shiftSrc := Config.defaultShiftSrc
  result := .ok Signals.quiet
  rndIn := none
  draws := 0

end Sys2Proof.Machine
end

