-- ==== Sys2Proof/Machine/Ops.lean ====
section
/-! DEFINITION. The named operations over memory, registers, the call stack and the framebuffer, the commit of a step,
and raising a fault (spec/10_state.md, spec/20_memory.md, spec/40_instruction_cycle.md). -/

namespace Sys2Proof.Machine

/-! ### Memory (spec/20) -/

/-- The font image, glyph by glyph from digit 0, top row first (spec/70 R261). -/
def fontImage : List Byte :=
  [0xF0, 0x90, 0x90, 0x90, 0xF0,  0x20, 0x60, 0x20, 0x20, 0x70,  0xF0, 0x10, 0xF0, 0x80, 0xF0,  0xF0, 0x10, 0xF0, 0x10, 0xF0] ++
  [0x90, 0x90, 0xF0, 0x10, 0x10,  0xF0, 0x80, 0xF0, 0x10, 0xF0,  0xF0, 0x80, 0xF0, 0x90, 0xF0,  0xF0, 0x10, 0x20, 0x40, 0x40] ++
  [0xF0, 0x90, 0xF0, 0x90, 0xF0,  0xF0, 0x90, 0xF0, 0x10, 0xF0,  0xF0, 0x90, 0xF0, 0x90, 0x90,  0xE0, 0x90, 0xE0, 0x90, 0xE0] ++
  [0xF0, 0x80, 0x80, 0x80, 0xF0,  0xE0, 0x90, 0x90, 0x90, 0xE0,  0xF0, 0x80, 0xF0, 0x80, 0xF0,  0xF0, 0x80, 0xF0, 0x80, 0x80]

/-- `FONT_BASE` (spec/00 R8, C5). -/
def fontBase : Nat := 0x050

/-- What an address reads as while nothing has written it: its contents after reset (spec/10 R37, spec/70 R260). -/
def resetByte (a : Nat) : Byte :=
  if fontBase ≤ a then fontImage.getD (a - fontBase) 0 else 0

/-- The first cell listed for an address. -/
def Memory.lookup : Memory → Nat → Option Byte
  | [], _ => none
  | c :: m, a => if c.1 = a then some c.2 else Memory.lookup m a

/-- `MemRead(a, 1)`: the cell at `a mod 4096` (spec/20 R52). -/
def Memory.readByte (m : Memory) (a : Nat) : Byte :=
  (Memory.lookup m (a % 4096)).getD (resetByte (a % 4096))

/-- A cell put before the first one of a greater address. -/
def Memory.place (a : Nat) (b : Byte) : Memory → Memory
  | [] => [(a, b)]
  | c :: m => if a < c.1 then (a, b) :: c :: m else c :: Memory.place a b m

/-- The cells of the other addresses. -/
def Memory.without (m : Memory) (a : Nat) : Memory := m.filter (fun c => c.1 ≠ a)

/-- `MemWrite(a, 1, b)`: the cell at `a mod 4096` becomes `b` (spec/20 R52); it is listed only if it differs from its
reset contents. -/
def Memory.writeByte (m : Memory) (a : Nat) (b : Byte) : Memory :=
  if b = resetByte (a % 4096) then m.without (a % 4096) else Memory.place (a % 4096) b (m.without (a % 4096))

/-- Bytes written from `a` upward, each address mod 4096, in rising order (spec/43 R173). -/
def Memory.writeBytes (m : Memory) (a : Nat) : List Byte → Memory
  | [] => m
  | b :: bs => Memory.writeBytes (m.writeByte a b) (a + 1) bs

/-- The canonical form: addresses in range and rising, no cell equal to its reset contents. -/
def Memory.wf : Memory → Bool
  | [] => true
  | c :: m => decide (c.1 < 4096) && decide (c.2 ≠ resetByte c.1) && m.all (fun d => decide (c.1 < d.1)) && Memory.wf m

/-- `Fetch16(pc)` (spec/20 R53): two bytes, the first the more significant, the second at `pc + 1` mod 4096. -/
def fetch16 (m : Memory) (pc : Word) : Word :=
  wordOfBytes (m.readByte pc.toNat) (m.readByte (pc.toNat + 1))

/-! ### Registers (spec/10) -/

/-- An address kept in a 16-bit register: its value mod 4096 (spec/10 R23, R24; spec/20 R51). -/
def addr12 (a : Nat) : Word := BitVec.ofNat 16 (a % 4096)

/-- `V[x]`. -/
def State.readV (s : State) (x : Reg) : Byte := s.v[x]

/-- `V[x] <- b`. -/
def State.writeV (s : State) (x : Reg) (b : Byte) : State := { s with v := s.v.set x b }

/-- `I <- a`, kept below 0x1000 (spec/10 R23). -/
def State.writeI (s : State) (a : Nat) : State := { s with i := addr12 a }

/-- `DT <- b` (spec/10 R26). -/
def State.writeDT (s : State) (b : Byte) : State := { s with dt := b }

/-- `ST <- b` (spec/10 R26). -/
def State.writeST (s : State) (b : Byte) : State := { s with st := b }

/-- The sound-active output (spec/10 R27, spec/60 R248). -/
def State.soundActive (s : State) : Bool := decide (s.st ≠ 0)

/-- Bytes stored from `a` upward. -/
def State.store (s : State) (a : Nat) (bs : List Byte) : State := { s with mem := s.mem.writeBytes a bs }

/-- `MemRead(a, 1)` of a state. -/
def State.readMem (s : State) (a : Nat) : Byte := s.mem.readByte a

/-- The registers with `V[0..x]` taken from the cells from `a` upward (spec/43 R176). Proofs use
`State.readV_loadRegs`. -/
@[irreducible] def State.loadedV (s : State) (x : Reg) (a : Nat) : Vector Byte 16 :=
  Vector.ofFn (fun k : Fin 16 => if k ≤ x then s.readMem (a + k.val) else s.readV k)

/-- `V[0..x]` loaded from the cells from `a` upward. -/
def State.loadRegs (s : State) (x : Reg) (a : Nat) : State := { s with v := s.loadedV x a }

/-- `KEYS[k]` (spec/10 R32). -/
def State.key (s : State) (k : Reg) : Bool := s.keys.getLsbD k.val

/-- The random byte of this step: the `rnd` argument where the host fixed one, else a free draw
(spec/00 R5, spec/93 U1). -/
def State.rnd (s : State) : Byte := s.rndIn.getD (Config.randomByte s.draws)

/-- The argument is used up and the next draw is another one. -/
def State.takeRnd (s : State) : State := { s with rndIn := none, draws := s.draws + 1 }

/-- The wait sub-state written (spec/10 R33). -/
def State.writeWait (s : State) (active : Bool) (reg : Reg) (prev : Word) : State :=
  { s with waitActive := active, waitReg := reg, waitPrev := prev }

/-! ### Call stack (spec/10 R28 to R30) -/

/-- `push(a)`; `none` where it raises StackOverflow (spec/10 R29). -/
def State.push (s : State) (a : Word) : Option State :=
  if h : s.sp.val < 16 then
    some { s with stack := s.stack.set s.sp.val a, sp := ⟨s.sp.val + 1, Nat.succ_lt_succ h⟩ }
  else none

/-- `pop()`: the top entry and the state after; `none` where it raises StackUnderflow. The entry is not cleared
(spec/10 R30). -/
def State.pop (s : State) : Option (Word × State) :=
  if h : 0 < s.sp.val then
    have hlt : s.sp.val - 1 < 16 := Nat.sub_lt_left_of_lt_add h (Nat.lt_of_lt_of_eq s.sp.isLt (Nat.add_comm 1 16).symm)
    some (s.stack[s.sp.val - 1], { s with sp := ⟨s.sp.val - 1, Nat.lt_succ_of_lt hlt⟩ })
  else none

/-! ### Framebuffer (spec/10 R31) -/

/-- `FB[x][y]`. -/
def FrameBuffer.pixel (fb : FrameBuffer) (x : Fin 64) (y : Fin 32) : Bool := fb[x][y]

/-- `FB[x][y] <- b`. -/
def FrameBuffer.setPixel (fb : FrameBuffer) (x : Fin 64) (y : Fin 32) (b : Bool) : FrameBuffer :=
  fb.set x (fb[x].set y b)

/-- Every pixel unlit (spec/44 R190). -/
def FrameBuffer.blank : FrameBuffer := Vector.replicate 64 (Vector.replicate 32 false)

/-- The framebuffer written. -/
def State.writeFB (s : State) (fb : FrameBuffer) : State := { s with fb := fb }

/-! ### The end of a step (spec/40) -/

/-- `PCn = (PC + 2) mod 4096` (spec/40 R101). -/
def State.pcNext (s : State) : Word := addr12 (s.pc.toNat + 2)

/-- `PCs = (PC + 4) mod 4096` (spec/40 R101). -/
def State.pcSkip (s : State) : Word := addr12 (s.pc.toNat + 4)

/-- The commit of a step that returns `Ok(sig)`: the next PC is written here (spec/40 R101, R104). -/
def commit (sig : Signals) (next : Word) (s : State) : Outcome :=
  .next { s with pc := next, result := .ok sig }

/-- The commit of an arm whose next PC is `PCn` and that raises no signal. -/
def advance (s : State) : Outcome := commit Signals.quiet s.pcNext s

/-- The commit of a step that returns `Blocked`: PC is unchanged (spec/40 R105). -/
def block (s : State) : Outcome := .next { s with result := .blocked }

/-- `raise F`: the step ends with a report of the PC and the word, and commits nothing (spec/00 R10, spec/40 R102,
spec/60 R235). -/
def raise (f : Word → Word → Fault) (w : Word) (s : State) : Outcome := .fault (f s.pc w)

/-- The kind a fault reports (spec/60 R230). -/
def Fault.kind : Fault → FaultKind
  | .decodeFault _ _ => .decodeFault
  | .stackOverflow _ _ => .stackOverflow
  | .stackUnderflow _ _ => .stackUnderflow

/-- `report.pc` (spec/00 R4). -/
def Fault.pc : Fault → Word
  | .decodeFault pc _ => pc
  | .stackOverflow pc _ => pc
  | .stackUnderflow pc _ => pc

/-- `report.word` (spec/00 R4). -/
def Fault.word : Fault → Word
  | .decodeFault _ w => w
  | .stackOverflow _ w => w
  | .stackUnderflow _ w => w

/-- The report of a faulting step (spec/00 R4). -/
def Fault.report (f : Fault) : FaultReport := { kind := f.kind, pc := f.pc, word := f.word }

/-- The numeric code of a fault kind (spec/60 R230). -/
def FaultKind.code : FaultKind → Nat
  | .decodeFault => 1
  | .stackOverflow => 2
  | .stackUnderflow => 3
  | .memoryOutOfRange => 4
  | .loadTooLarge => 5

end Sys2Proof.Machine
end

