-- ==== Sys2Proof/Machine/Operands.lean ====
section
/-! DEFINITION. The operand forms that are more than a register or an immediate: the shift source, the low nibble of a
register, the glyph address, the BCD digits, the dumped registers and the sprite coordinates. -/

namespace Sys2Proof.Machine

/-- The operand of `8XY6` and `8XYE` (spec/42 R149, R151): `V[X]` or `V[Y]`, by `SHIFT_SRC`. -/
def State.shiftOperand (s : State) (x y : Reg) : Byte :=
  match s.shiftSrc with
  | .vx => s.readV x
  | .vy => s.readV y

/-- `V[x] & 0xF`, a key index or a digit (spec/45 R210, spec/43 R172). -/
def lowNibble (b : Byte) : Reg := (b.extractLsb' 0 4).toFin

/-- The address of the glyph of a digit, `0x050 + 5 * d` (spec/43 R172). -/
def glyphAddress (d : Reg) : Nat := fontBase + 5 * d.val

/-- The decimal digits of a byte: hundreds, tens, ones (spec/43 R174). -/
def bcdDigits (b : Byte) : List Byte :=
  [BitVec.ofNat 8 (b.toNat / 100), BitVec.ofNat 8 (b.toNat / 10 % 10), BitVec.ofNat 8 (b.toNat % 10)]

/-- `V[0], ..., V[x]` (spec/43 R175). -/
def State.regsUpTo (s : State) (x : Reg) : List Byte := s.v.toList.take (x.val + 1)

/-- The column of a sprite's first pixel, `V[X] mod 64` (spec/44 R191). -/
def spriteColumn (b : Byte) : Nat := b.toNat % 64

/-- The row of a sprite's first pixel, `V[Y] mod 32` (spec/44 R191). -/
def spriteRow (b : Byte) : Nat := b.toNat % 32

/-- The least key of a 16-bit key set (spec/45 R212). -/
def leastKey (w : Word) : Option Reg := (List.finRange 16).find? (fun k => w.getLsbD k.val)

/-- The keys pressed now and released at the last sample, `KEYS & ~WAIT_PREV` (spec/45 R212). -/
def State.newKeys (s : State) : Word := s.keys &&& ~~~s.waitPrev

end Sys2Proof.Machine
end

