-- ==== Sys2Proof/Machine/Flags.lean ====
section
/-! DEFINITION. Every value written to VF as a flag, and the order of the two register writes (spec/42_alu.md R140,
spec/10 R22). VF is the only flag (spec/10 R35). -/

namespace Sys2Proof.Machine

/-- A comparison as the value VF gets: 1 when true, 0 when false (spec/00 R11). -/
def flagByte (b : Bool) : Byte := if b then 1 else 0

/-- Carry out of bit 7 of `a + b` (spec/42 R147). -/
def carryFlag (a b : Byte) : Byte := flagByte (decide (256 ≤ a.toNat + b.toNat))

/-- Not-borrow of `a - b` (spec/42 R148, R150). -/
def notBorrowFlag (a b : Byte) : Byte := flagByte (decide (b.toNat ≤ a.toNat))

/-- The bit a right shift shifts out (spec/42 R149). -/
def rightShiftedOut (b : Byte) : Byte := flagByte (b.getLsbD 0)

/-- The bit a left shift shifts out (spec/42 R151). -/
def leftShiftedOut (b : Byte) : Byte := flagByte (b.getLsbD 7)

/-- The destination first and VF last, so that VF ends with the flag (spec/42 R140, spec/40 R103, C2). -/
def State.writeVWithFlag (s : State) (x : Reg) (b flag : Byte) : State := (s.writeV x b).writeV regF flag

end Sys2Proof.Machine
end

