-- ==== Sys2Proof/Machine/Alu.lean ====
section
/-! DEFINITION. Register arithmetic and logic, and the random byte (spec/42_alu.md). -/

namespace Sys2Proof.Machine

/-- An arm that writes `V[x]` and no flag. -/
def setReg (x : Reg) (b : Byte) (s : State) : Outcome := advance (s.writeV x b)

/-- An arm that writes `V[x]` and then the flag to VF. -/
def setRegAndFlag (x : Reg) (b flag : Byte) (s : State) : Outcome := advance (s.writeVWithFlag x b flag)

/-- LD VX, NN (spec/42 R141). -/
def execLdI8 (x : Reg) (nn : Byte) (s : State) : Outcome := setReg x nn s

/-- ADD VX, NN: no flag (spec/42 R142). -/
def execAddI8 (x : Reg) (nn : Byte) (s : State) : Outcome := setReg x (s.readV x + nn) s

/-- LD VX, VY (spec/42 R143). -/
def execLdR (x y : Reg) (s : State) : Outcome := setReg x (s.readV y) s

/-- OR VX, VY (spec/42 R144). -/
def execOr (x y : Reg) (s : State) : Outcome := setReg x (s.readV x ||| s.readV y) s

/-- AND VX, VY (spec/42 R145). -/
def execAnd (x y : Reg) (s : State) : Outcome := setReg x (s.readV x &&& s.readV y) s

/-- XOR VX, VY (spec/42 R146). -/
def execXor (x y : Reg) (s : State) : Outcome := setReg x (s.readV x ^^^ s.readV y) s

/-- ADD VX, VY (spec/42 R147). -/
def execAddR (x y : Reg) (s : State) : Outcome :=
  setRegAndFlag x (s.readV x + s.readV y) (carryFlag (s.readV x) (s.readV y)) s

/-- SUB VX, VY (spec/42 R148). -/
def execSub (x y : Reg) (s : State) : Outcome :=
  setRegAndFlag x (s.readV x - s.readV y) (notBorrowFlag (s.readV x) (s.readV y)) s

/-- SHR VX, VY (spec/42 R149). -/
def execShr (x y : Reg) (s : State) : Outcome :=
  setRegAndFlag x (s.shiftOperand x y >>> 1) (rightShiftedOut (s.shiftOperand x y)) s

/-- SUBN VX, VY (spec/42 R150). -/
def execSubn (x y : Reg) (s : State) : Outcome :=
  setRegAndFlag x (s.readV y - s.readV x) (notBorrowFlag (s.readV y) (s.readV x)) s

/-- SHL VX, VY (spec/42 R151). -/
def execShl (x y : Reg) (s : State) : Outcome :=
  setRegAndFlag x (s.shiftOperand x y <<< 1) (leftShiftedOut (s.shiftOperand x y)) s

/-- RND VX, NN (spec/42 R152). -/
def execRnd (x : Reg) (nn : Byte) (s : State) : Outcome := setReg x (s.rnd &&& nn) s.takeRnd

end Sys2Proof.Machine
end

