-- ==== Sys2Proof/Machine/Display.lean ====
section
/-! DEFINITION. Clear screen and sprite draw (spec/44_display.md). -/

namespace Sys2Proof.Machine

/-- The signals of a step that may have changed the framebuffer (spec/40 R104, spec/44 R195). -/
def Signals.dirty : Signals := { screenDirty := true, soundEdge := .none }

/-- A framebuffer and the collision flag found so far (spec/44 R191, `FB` and `col`). -/
abbrev Canvas := FrameBuffer × Bool

/-- One set sprite bit: a lit pixel is a collision, and the pixel is inverted (spec/44 R191). -/
def flipPixel (px : Fin 64) (py : Fin 32) (c : Canvas) : Canvas :=
  (c.1.setPixel px py (!c.1.pixel px py), c.2 || c.1.pixel px py)

/-- Columns `0..n-1` of row `r` of a sprite, whose byte is `b`: bit 7 is the leftmost pixel (spec/44 R191). -/
def drawColumns (x0 y0 r : Nat) (b : Byte) : Nat → Canvas → Canvas
  | 0, c => c
  | n + 1, c =>
    if b.getLsbD (7 - n) then
      flipPixel (Fin.ofNat 64 (x0 + n)) (Fin.ofNat 32 (y0 + r)) (drawColumns x0 y0 r b n c)
    else drawColumns x0 y0 r b n c

/-- Rows `0..n-1` of the sprite at `a` (spec/44 R191). -/
def drawRows (m : Memory) (a x0 y0 : Nat) : Nat → Canvas → Canvas
  | 0, c => c
  | n + 1, c => drawColumns x0 y0 n (m.readByte (a + n)) 8 (drawRows m a x0 y0 n c)

/-- The whole draw of `DXYN`: the framebuffer after and the collision flag (spec/44 R191). -/
def State.drawSprite (s : State) (x y : Reg) (n : Nibble) : Canvas :=
  drawRows s.mem s.i.toNat (spriteColumn (s.readV x)) (spriteRow (s.readV y)) n.toNat (s.fb, false)

/-- CLS (spec/44 R190). -/
def execCls (s : State) : Outcome := commit Signals.dirty s.pcNext (s.writeFB FrameBuffer.blank)

/-- DRW VX, VY, N (spec/44 R191, R196). On the flag of a second equal draw R193 and R191 disagree, and
no ruling settles it: DESIGN CHOICE, the arm follows R191, notes/assumptions/16.md. -/
def execDrw (x y : Reg) (n : Nibble) (s : State) : Outcome :=
  commit Signals.dirty s.pcNext
    ((s.writeFB (s.drawSprite x y n).1).writeV regF (flagByte (s.drawSprite x y n).2))

end Sys2Proof.Machine
end

