-- ==== Sys2Proof/Machine/IndexMemory.lean ====
section
/-! DEFINITION. The index register and the memory transfers (spec/43_index_memory.md). `I` is never changed by an
access (R173). -/

namespace Sys2Proof.Machine

/-- LD I, NNN (spec/43 R170). -/
def execLdIdx (nnn : Addr) (s : State) : Outcome := advance (s.writeI nnn.toNat)

/-- ADD I, VX: VF is not written (spec/43 R171). -/
def execAddIdx (x : Reg) (s : State) : Outcome := advance (s.writeI (s.i.toNat + (s.readV x).toNat))

/-- LD F, VX (spec/43 R172). -/
def execLdF (x : Reg) (s : State) : Outcome := advance (s.writeI (glyphAddress (lowNibble (s.readV x))))

/-- LD B, VX (spec/43 R174). -/
def execLdB (x : Reg) (s : State) : Outcome := advance (s.store s.i.toNat (bcdDigits (s.readV x)))

/-- LD [I], VX (spec/43 R175). -/
def execStRegs (x : Reg) (s : State) : Outcome := advance (s.store s.i.toNat (s.regsUpTo x))

/-- LD VX, [I] (spec/43 R176). -/
def execLdRegs (x : Reg) (s : State) : Outcome := advance (s.loadRegs x s.i.toNat)

end Sys2Proof.Machine
end

