-- ==== Sys2Proof/Machine/Control.lean ====
section
/-! DEFINITION. The control flow instructions (spec/41_control_flow.md). -/

namespace Sys2Proof.Machine

/-- The next PC of a skip form (spec/41 R124 to R127): two words on where the condition holds. -/
def skipIf (c : Bool) (s : State) : Outcome := commit Signals.quiet (if c then s.pcSkip else s.pcNext) s

/-- SYS NNN: a no-op (spec/41 R120; the spec's decision D7). -/
def execSys (_nnn : Addr) (s : State) : Outcome := advance s

/-- RET (spec/41 R121). -/
def execRet (s : State) : Outcome :=
  match s.pop with
  | some (a, s') => commit Signals.quiet (addr12 a.toNat) s'
  | none => raise .stackUnderflow (encode .ret) s

/-- JP NNN (spec/41 R122). -/
def execJp (nnn : Addr) (s : State) : Outcome := commit Signals.quiet (addr12 nnn.toNat) s

/-- CALL NNN: the return address is the word after the call (spec/41 R123). -/
def execCall (nnn : Addr) (s : State) : Outcome :=
  match s.push s.pcNext with
  | some s' => commit Signals.quiet (addr12 nnn.toNat) s'
  | none => raise .stackOverflow (encode (.call nnn)) s

/-- SE VX, NN (spec/41 R124). -/
def execSeI (x : Reg) (nn : Byte) (s : State) : Outcome := skipIf (decide (s.readV x = nn)) s

/-- SNE VX, NN (spec/41 R125). -/
def execSneI (x : Reg) (nn : Byte) (s : State) : Outcome := skipIf (decide (s.readV x ≠ nn)) s

/-- SE VX, VY (spec/41 R126). -/
def execSeR (x y : Reg) (s : State) : Outcome := skipIf (decide (s.readV x = s.readV y)) s

/-- SNE VX, VY (spec/41 R127). -/
def execSneR (x y : Reg) (s : State) : Outcome := skipIf (decide (s.readV x ≠ s.readV y)) s

/-- JP V0, NNN (spec/41 R128). -/
def execJpV0 (nnn : Addr) (s : State) : Outcome :=
  commit Signals.quiet (addr12 (nnn.toNat + (s.readV 0).toNat)) s

end Sys2Proof.Machine
end

