-- ==== Sys2Proof/Machine/KeypadTimers.lean ====
section
/-! DEFINITION. The keypad and timer instructions and the key-wait poll (spec/45_keypad_timers.md). -/

namespace Sys2Proof.Machine

/-- The edge reported when `ST` changes from `old` to `new` (spec/10 R27, spec/45 R215). -/
def soundEdge (old new : Byte) : SoundEdge :=
  if old = 0 ∧ new ≠ 0 then .on else if old ≠ 0 ∧ new = 0 then .off else .none

/-- SKP VX (spec/45 R217). -/
def execSkp (x : Reg) (s : State) : Outcome := skipIf (s.key (lowNibble (s.readV x))) s

/-- SKNP VX (spec/45 R218). -/
def execSknp (x : Reg) (s : State) : Outcome := skipIf (!s.key (lowNibble (s.readV x))) s

/-- LD VX, DT (spec/45 R213). -/
def execLdVxDt (x : Reg) (s : State) : Outcome := advance (s.writeV x s.dt)

/-- LD VX, K: the entry into the wait (spec/45 R211). -/
def execLdVxK (x : Reg) (s : State) : Outcome := block (s.writeWait true x s.keys)

/-- LD DT, VX (spec/45 R214). -/
def execLdDtVx (x : Reg) (s : State) : Outcome := advance (s.writeDT (s.readV x))

/-- LD ST, VX (spec/45 R215). -/
def execLdStVx (x : Reg) (s : State) : Outcome :=
  commit { screenDirty := false, soundEdge := soundEdge s.st (s.readV x) } s.pcNext (s.writeST (s.readV x))

/-- `KeyWaitPoll`: the step taken while `WAIT_ACTIVE = 1` (spec/45 R212). It does not fetch (spec/40 R107). -/
def keyWaitPoll (s : State) : Outcome :=
  match leastKey s.newKeys with
  | none => block (s.writeWait s.waitActive s.waitReg s.keys)
  | some k => advance ((s.writeV s.waitReg (BitVec.ofNat 8 k.val)).writeWait false s.waitReg s.waitPrev)

end Sys2Proof.Machine
end

