-- ==== Sys2Proof/Machine/Step.lean ====
section
/-! DEFINITION. The `step` operation (spec/40_instruction_cycle.md R100), and the placing of one instruction where the
next step fetches it. -/

namespace Sys2Proof.Machine

/-- The step taken while no key wait is pending: fetch, decode, execute (spec/40 R100). -/
def fetchAndExecute (s : State) : Outcome :=
  match decode (fetch16 s.mem s.pc) with
  | .form i => exec i s
  | .unknown => raise .decodeFault (fetch16 s.mem s.pc) s

/-- `step` (spec/40 R100): the key wait is checked first. Its `rnd` argument stands in the state
(notes/assumptions/1.md). -/
def step (s : State) : Host.Outcome State Fault Refusal :=
  if s.waitActive then keyWaitPoll s else fetchAndExecute s

/-- The state with one instruction at the program counter and no key wait pending, so that the next step runs it
(notes/assumptions/5.md). -/
def State.withFetchWord (s : State) (nbits w : Nat) : State :=
  { s with
    mem := s.mem.writeBytes s.pc.toNat [highByte (tableWord nbits w), lowByte (tableWord nbits w)]
    waitActive := false }

end Sys2Proof.Machine
end

