-- ==== Sys2Proof/Machine/Core.lean ====
section
/-! DEFINITION. The machine as the host's interface asks for it. -/

/-- The machine whose steps are the `step` operation. `Host.Core.run` ends a run of it after its count of steps, or at the
first fault, which is the model's own end of a run (spec/40 R110). DESIGN CHOICE: notes/assumptions/21.md. -/
def Sys2Proof.core : Host.Core := { State := Sys2Proof.Machine.State, Fault := Sys2Proof.Machine.Fault, Refusal := Sys2Proof.Machine.Refusal, step := Sys2Proof.Machine.step, reset := Sys2Proof.Machine.State.reset }
end

