-- ==== Sys2Proof/Machine/HostOps.lean ====
section
/-! DEFINITION. The host's operations beside `step` (spec/00_scope.md R3): reset, load, tick, key_write, fb_read, skip,
and one transaction of any of them. -/

namespace Sys2Proof.Machine

/-- `step(rnd)` (spec/40 R100): a step whose random byte the host supplies. -/
def stepWith (rnd : Byte) (s : State) : Outcome := step { s with rndIn := some rnd }

/-- `reset()` (spec/70 R260). The configuration and the draws of the random source, which are not the core's state,
are kept (notes/assumptions/1.md, 3.md). -/
def hostReset (s : State) : State :=
  { State.reset with shiftSrc := s.shiftSrc, rndIn := s.rndIn, draws := s.draws }

/-- The result of `load` (spec/70 R263). -/
inductive LoadResult where
  | ok
  | tooLarge
  deriving DecidableEq, Repr

/-- `PROGRAM_BASE` (spec/00 R8). -/
def programBase : Nat := 0x200

/-- `MAX_PROGRAM` (spec/00 R8). -/
def maxProgram : Nat := 3584

/-- `load(bytes)` (spec/70 R263): all the bytes from 0x200 upward, or nothing. -/
def load (bytes : List Byte) (s : State) : State × LoadResult :=
  if bytes.length ≤ maxProgram then (s.store programBase bytes, .ok) else (s, .tooLarge)

/-- One count down, floored at zero (spec/60 R241). -/
def countDown (b : Byte) : Byte := if b = 0 then 0 else b - 1

/-- `tick()` (spec/60 R240): both timers count down, and the sound edge is returned. -/
def tick (s : State) : State × SoundEdge :=
  ({ s with dt := countDown s.dt, st := countDown s.st }, if s.st = 1 then .off else .none)

/-- The state after `k` ticks with no step between them (spec/60 R242). -/
def tickTimes : Nat → State → State
  | 0, s => s
  | k + 1, s => (tick (tickTimes k s)).1

/-- `key_write(k, pressed)` (spec/60 R246). -/
def keyWrite (k : Reg) (pressed : Bool) (s : State) : State :=
  { s with keys :=
      if pressed then s.keys ||| BitVec.twoPow 16 k.val else s.keys &&& ~~~(BitVec.twoPow 16 k.val) }

/-- `fb_read()` (spec/60 R247). -/
def fbRead (s : State) : FrameBuffer := s.fb

/-- Byte `k` of the packed view, pixels `8 * (k mod 8)` to `8 * (k mod 8) + 7` of row `k / 8`, the leftmost in the most
significant bit (spec/60 R247; the spec's decision D25). -/
def fbPackedByte (fb : FrameBuffer) (k : Fin 256) : Byte :=
  BitVec.ofFnLE (fun j : Fin 8 => fb.pixel (Fin.ofNat 64 (8 * (k.val % 8) + (7 - j.val))) (Fin.ofNat 32 (k.val / 8)))

/-- The 256 bytes of the packed view, in row-major order (spec/60 R247). -/
def fbPacked (fb : FrameBuffer) : List Byte := (List.finRange 256).map (fbPackedByte fb)

/-- `skip()` (spec/60 R236). -/
def skip (s : State) : State := { s with pc := s.pcNext, waitActive := false }

/-- An operation of the host's interface (spec/00 R3). -/
inductive HostOp where
  | reset
  | load (bytes : List Byte)
  | step (rnd : Byte)
  | tick
  | keyWrite (k : Reg) (pressed : Bool)
  | fbRead
  | skip
  deriving DecidableEq, Repr

/-- What an operation returns (spec/00 R3, R4). -/
inductive OpResult where
  /-- No result: reset, key_write, skip. -/
  | none
  | loaded (r : LoadResult)
  | stepped (r : StepResult)
  | faulted (r : FaultReport)
  /-- A step the model has no meaning for; none is refused. -/
  | refused (r : Refusal)
  | ticked (e : SoundEdge)
  | framebuffer (fb : FrameBuffer)
  deriving DecidableEq, Repr

/-- The state and the result after a step. A fault leaves the state exactly as it was (spec/40 R102, spec/60 R235);
the `rnd` argument does not outlive the step. -/
def afterStep (s : State) : Outcome → State × OpResult
  | .next t => ({ t with rndIn := Option.none }, .stepped t.result)
  | .fault f => (s, .faulted f.report)
  | .refused r => (s, .refused r)

/-- One operation as one indivisible transaction (spec/00 R3, spec/20 R60). -/
def perform (op : HostOp) (s : State) : State × OpResult :=
  match op with
  | .reset => (hostReset s, .none)
  | .load bytes => ((load bytes s).1, .loaded (load bytes s).2)
  | .step rnd => afterStep s (stepWith rnd s)
  | .tick => ((tick s).1, .ticked (tick s).2)
  | .keyWrite k pressed => (keyWrite k pressed s, .none)
  | .fbRead => (s, .framebuffer (fbRead s))
  | .skip => (skip s, .none)

/-- The state after the first `k` operations of a schedule the host chooses (spec/40 R108, spec/70 R271). The core has no
halt, and a model must say where a run ends (spec/40 R110): here a run ends where its count of operations ends. DESIGN
CHOICE: notes/assumptions/21.md. -/
def afterOps (ops : Nat → HostOp) (s : State) : Nat → State
  | 0 => s
  | k + 1 => (perform (ops k) (afterOps ops s k)).1

end Sys2Proof.Machine
end

