-- ==== Sys2Proof/Safety.lean ====
section
/-! DEFINITION. The terms claims use: the invariant of a state, the frame of a step, the states an instance can reach, and
the spec's own description of a sprite. -/

namespace Sys2Proof.Machine

/-- What every reachable state meets: memory in canonical form, `PC` and `I` below 0x1000 (spec/10 R23, R24), and so
every valid return address (spec/41 R121). -/
structure State.Inv (s : State) : Prop where
  mem : s.mem.wf = true
  pc : s.pc.toNat < 4096
  i : s.i.toNat < 4096
  stack : ∀ k : Fin 16, k.val < s.sp.val → s.stack[k].toNat < 4096

/-- The parts of the state beside V, memory, PC and the last result. -/
inductive Part where
  | index
  | delayTimer
  | soundTimer
  | callStack
  | framebuffer
  | keypad
  | keyWait
  | shiftSource
  | randomInput
  deriving DecidableEq, Repr

/-- A part has in `t` the value it has in `s`. -/
def Part.same (s t : State) : Part → Prop
  | .index => t.i = s.i
  | .delayTimer => t.dt = s.dt
  | .soundTimer => t.st = s.st
  | .callStack => t.stack = s.stack ∧ t.sp = s.sp
  | .framebuffer => t.fb = s.fb
  | .keypad => t.keys = s.keys
  | .keyWait => t.waitActive = s.waitActive ∧ t.waitReg = s.waitReg ∧ t.waitPrev = s.waitPrev
  | .shiftSource => t.shiftSrc = s.shiftSrc
  | .randomInput => t.rndIn = s.rndIn ∧ t.draws = s.draws

/-- From `s` to `t` nothing changed but the named registers, the named cells (by their address below 4096), the listed
parts, PC and the last result. -/
structure Frame (s t : State) (regs : Reg → Prop) (cells : Nat → Prop) (parts : List Part) : Prop where
  regs : ∀ y, ¬ regs y → t.readV y = s.readV y
  cells : ∀ a, ¬ cells (a % 4096) → t.readMem a = s.readMem a
  parts : ∀ p, p ∉ parts → p.same s t

/-- No register. -/
def noReg : Reg → Prop := fun _ => False

/-- One register. -/
def onlyReg (x : Reg) : Reg → Prop := fun y => y = x

/-- A destination and VF. -/
def regAndVF (x : Reg) : Reg → Prop := fun y => y = x ∨ y = regF

/-- No cell. -/
def noCell : Nat → Prop := fun _ => False

/-- The `n` cells from `a` upward, mod 4096 (spec/43 R173). -/
def cellsFrom (a n : Nat) : Nat → Prop := fun b => ∃ k, k < n ∧ b = (a + k) % 4096

/-- PC moved `k` bytes on, mod 4096 (spec/40 R101; the wrap is the spec's decision D2). -/
def PcMoved (s t : State) (k : Nat) : Prop := t.pc.toNat = (s.pc.toNat + k) % 4096

/-- The step returned `Ok` with no signal (spec/40 R104). -/
def ReturnedOk (t : State) : Prop := t.result = .ok { screenDirty := false, soundEdge := .none }

/-- The step returned `Ok` with `screen_dirty` (spec/40 R104). -/
def ReturnedDirty (t : State) : Prop := t.result = .ok { screenDirty := true, soundEdge := .none }

/-- A set bit of the sprite of `DXYN` falls on the pixel (spec/44 R191): bit `7 - c` of row `r`, at column
`(V[X] mod 64 + c) mod 64` and row `(V[Y] mod 32 + r) mod 32`. -/
def SpriteHits (s : State) (x y : Reg) (n : Nibble) (px : Fin 64) (py : Fin 32) : Prop :=
  ∃ r c : Nat, r < n.toNat ∧ c < 8 ∧ (s.readMem (s.i.toNat + r)).getLsbD (7 - c) = true ∧
    px.val = ((s.readV x).toNat % 64 + c) % 64 ∧ py.val = ((s.readV y).toNat % 32 + r) % 32

/-- The sound edge of a change of the sound-active output (spec/10 R27). -/
def edgeOf (before after : Bool) : SoundEdge :=
  match before, after with
  | false, true => .on
  | true, false => .off
  | false, false => .none
  | true, true => .none

/-- A key wait is pending and no key is newly pressed: every key pressed now was pressed at the last sample
(spec/45 R212). -/
def NoNewKey (s : State) : Prop := ∀ k : Reg, s.keys.getLsbD k.val = true → s.waitPrev.getLsbD k.val = true

/-- The states of an instance: created with either shift source, then any operations in any order (spec/70 R260, R264,
spec/40 R108). -/
inductive Reachable : State → Prop where
  | created (src : ShiftSrc) : Reachable { State.reset with shiftSrc := src }
  | operation (op : HostOp) (s : State) : Reachable s → Reachable (perform op s).1

/-- The possible hangs of a run (spec/70 R268, spec/93 U9), of which there is one kind: under the host's schedule `ops` the
key wait pending in `s` is never ended. It is no fault and no final state (notes/assumptions/22.md). -/
def Hangs (ops : Nat → HostOp) (s : State) : Prop := ∀ k, (afterOps ops s k).waitActive = true

end Sys2Proof.Machine
end

