-- ==== Sys2Proof/Certificates/Slice0/Obligations.lean ====
section
/-! DEFINITION. The statements for the provers, in the order of OBLIGATIONS.json. Each docstring names the rules of spec/
it formalises; where one rests on a decision the spec marks as its own, or on a choice of the model, it says so. -/

open Sys2Proof Sys2Proof.Machine

/-! ### Decoding (spec/30) -/

/-- Words written out from the patterns of spec/30 R85, at least one of each format of R83, decode to their forms, and two
illegal words to none (spec/95 L1.3, L2.1). -/
def Obligations.TableWordsDecode : Prop :=
  decode 0x0000 = .form (.sys 0x000) ∧ decode 0x00E0 = .form .cls ∧ decode 0x00EE = .form .ret ∧
  decode 0x1234 = .form (.jp 0x234) ∧ decode 0x3F00 = .form (.seI 0xF 0x00) ∧ decode 0x5120 = .form (.seR 1 2) ∧
  decode 0x8AB7 = .form (.subn 0xA 0xB) ∧ decode 0xD005 = .form (.drw 0 0 5) ∧ decode 0xE5A1 = .form (.sknp 5) ∧
  decode 0xFF65 = .form (.ldRegs 0xF) ∧
  decode 0x800F = .unknown ∧ decode 0xF0FF = .unknown

/-- Decoding the word of a well-formed instruction gives it back, whatever its operands (spec/30 R84, R85, R90). -/
def Obligations.DecodeOfEncode : Prop :=
  ∀ i : Instr, i.wf = true → decode (encode i) = .form i

/-- A word that decodes is the word of the instruction it decodes to, so no bit is dropped, and that instruction is
well-formed (spec/30 R90). -/
def Obligations.EncodeOfDecode : Prop :=
  ∀ (w : Word) (i : Instr), decode w = .form i → encode i = w ∧ i.wf = true

/-- The illegal words are exactly the five patterns of spec/30 R86 (the zero nibble of `5XY0` and `9XY0` is the spec's
own decision D20). -/
def Obligations.IllegalWordsAreExactly : Prop :=
  ∀ w : Word, decode w = .unknown ↔
    (fieldO w = 0x5 ∧ fieldN w ≠ 0x0) ∨
    (fieldO w = 0x8 ∧ fieldN w ∈ [0x8, 0x9, 0xA, 0xB, 0xC, 0xD, 0xF]) ∨
    (fieldO w = 0x9 ∧ fieldN w ≠ 0x0) ∨
    (fieldO w = 0xE ∧ fieldNN w ∉ [0x9E, 0xA1]) ∨
    (fieldO w = 0xF ∧ fieldNN w ∉ [0x07, 0x0A, 0x15, 0x18, 0x1E, 0x29, 0x33, 0x55, 0x65])

/-! ### The instruction cycle (spec/40) -/

/-- While no key wait is pending, a step is the execution of the instruction its fetched word decodes to; nothing is
added around it, the next PC being written by the instruction's own commit (spec/40 R100, R101). The operation
step(rnd) of the host is that step with its byte as the argument: where it goes on, the operation gives its state, with
the argument used up, and returns its result, so RND masks the host's byte (spec/00 R3, R5, spec/42 R152; that the argument
stands in the state is the model's choice, notes/assumptions/1.md). -/
def Obligations.StepRunsDecodedInstruction : Prop :=
  (∀ (s : State) (i : Instr), s.waitActive = false →
    decode (wordOfBytes (s.readMem s.pc.toNat) (s.readMem (s.pc.toNat + 1))) = .form i → step s = exec i s) ∧
  (∀ (s t : State) (rnd : Byte), step { s with rndIn := some rnd } = .next t →
    perform (.step rnd) s = ({ t with rndIn := none }, .stepped t.result)) ∧
  (∀ (s : State) (rnd : Byte) (x : Reg) (nn : Byte), s.waitActive = false →
    decode (wordOfBytes (s.readMem s.pc.toNat) (s.readMem (s.pc.toNat + 1))) = .form (.rnd x nn) →
    ∃ t, perform (.step rnd) s = (t, .stepped (.ok { screenDirty := false, soundEdge := .none })) ∧
      t.readV x = rnd &&& nn)

/-- spec/60 R231: an illegal word at PC ends the step with DecodeFault, its address and the word; nothing changes. -/
def Obligations.StepFaultsOnIllegalWord : Prop :=
  ∀ (s : State) (rnd : Byte), s.waitActive = false → decode (fetch16 s.mem s.pc) = .unknown →
    perform (.step rnd) s = (s, .faulted { kind := .decodeFault, pc := s.pc, word := fetch16 s.mem s.pc })

/-- spec/40 R107: while a key wait is pending a step reads neither memory nor PC's word nor the random byte: whatever
they are, it does the same. -/
def Obligations.PendingWaitReadsNoMemory : Prop :=
  ∀ (s t : State), s.waitActive = true → step s = .next t → ∀ (m : Memory) (r : Option Byte),
    step { s with mem := m, rndIn := r } = .next { t with mem := m, rndIn := r }

/-- Every step completes or faults; none is refused (spec/40 R100, R109). -/
def Obligations.StepNeverRefused : Prop :=
  ∀ (s : State) (r : Refusal), step s ≠ .refused r

/-- A step that faults leaves the state as it was, and a further step faults in the same way, whatever its random byte
(spec/40 R102, spec/60 R235, R237; the second part is the spec's own inference). -/
def Obligations.FaultFreezesState : Prop :=
  ∀ (s t : State) (rnd : Byte) (f : FaultReport), perform (.step rnd) s = (t, .faulted f) →
    t = s ∧ ∀ rnd' : Byte, perform (.step rnd') t = (s, .faulted f)

/-- spec/60 R232, R233: StackOverflow is raised only by CALL with 16 entries, StackUnderflow only by RET with none; each
reports PC and the word of the instruction, and no instruction raises DecodeFault. -/
def Obligations.ExecutionFaultsExactly : Prop :=
  ∀ (i : Instr) (s : State) (f : Fault), exec i s = .fault f ↔
    (∃ nnn, i = .call nnn ∧ s.sp.val = 16 ∧ f = .stackOverflow s.pc (encode (.call nnn))) ∨
    (i = .ret ∧ s.sp.val = 0 ∧ f = .stackUnderflow s.pc 0x00EE)

/-- spec/40 R105: a step returns Blocked exactly when it enters a key wait or polls one in vain; it moves no PC. -/
def Obligations.BlockedExactly : Prop :=
  ∀ (s t : State), step s = .next t →
    (t.result = .blocked ↔
      (s.waitActive = false ∧ ∃ x, decode (fetch16 s.mem s.pc) = .form (.ldVxK x)) ∨
      (s.waitActive = true ∧ NoNewKey s)) ∧
    (t.result = .blocked → t.pc = s.pc)

/-- spec/40 R110: from a jump to its own address every number of steps leaves the state unchanged (the last result
apart, which is the model's own field, notes/assumptions/2.md). -/
def Obligations.SelfJumpRests : Prop :=
  ∀ (s : State) (nnn : Addr), s.waitActive = false → ReturnedOk s →
    decode (fetch16 s.mem s.pc) = .form (.jp nnn) → s.pc.toNat = nnn.toNat →
    ∀ n : Nat, Sys2Proof.core.run n s = .next s

/-! ### Memory (spec/20) -/

/-- spec/20 R52: after one byte is stored at `a`, the cell at `a` mod 4096 reads as that byte, and every other cell as
before. -/
def Obligations.ReadAfterWrite : Prop :=
  ∀ (s : State) (a b : Nat) (v : Byte),
    (s.store a [v]).readMem b = if b % 4096 = a % 4096 then v else s.readMem b

/-- Writes to distinct cells of a memory in canonical form give the same memory in either order (spec/20 R60). -/
def Obligations.DistinctWritesCommute : Prop :=
  ∀ (m : Memory) (a b : Nat) (v w : Byte), m.wf = true → a % 4096 ≠ b % 4096 →
    (m.writeByte a v).writeByte b w = (m.writeByte b w).writeByte a v

/-- spec/20 R53: a fetched word has the byte at `pc` in its high half and the byte at `pc + 1`, mod 4096, in its low
half. -/
def Obligations.FetchIsBigEndian : Prop :=
  ∀ (m : Memory) (pc : Word),
    (fetch16 m pc).toNat = 256 * (m.readByte (pc.toNat % 4096)).toNat + (m.readByte ((pc.toNat + 1) % 4096)).toNat

/-- spec/20 R59: a byte stored at `a` is the high byte of a word fetched at `a` and the low byte of one fetched at
`a - 1` (mod 4096); the other byte of each is as before. -/
def Obligations.StoreIsSeenByFetch : Prop :=
  ∀ (m : Memory) (a : Word) (v : Byte),
    highByte (fetch16 (m.writeByte a.toNat v) a) = v ∧
    lowByte (fetch16 (m.writeByte a.toNat v) a) = lowByte (fetch16 m a) ∧
    lowByte (fetch16 (m.writeByte a.toNat v) (a - 1)) = v ∧
    highByte (fetch16 (m.writeByte a.toNat v) (a - 1)) = highByte (fetch16 m (a - 1))

/-- Memories in canonical form that read alike at every address are equal data (spec/20 R50; the form is the model's,
notes/assumptions/6.md). -/
def Obligations.EqualReadsEqualMemories : Prop :=
  ∀ m m' : Memory, m.wf = true → m'.wf = true → (∀ a, a < 4096 → m.readByte a = m'.readByte a) → m = m'

/-! ### Invariants and whole-machine rules -/

/-- The invariant holds after reset: that I and SP are 0 there is the spec's own decision D6 (spec/10 R37,
notes/assumptions/8.md), and that memory has a canonical form is the model's choice (notes/assumptions/6.md). -/
def Obligations.InvariantAtReset : Prop := State.reset.Inv

/-- Every step keeps the invariant: PC and I below 0x1000, valid return addresses below 0x1000 (spec/10 R23, R24, spec/41
R121; D2 and D4 are the spec's own decisions), and memory canonical (the model's choice, notes/assumptions/6.md). -/
def Obligations.StepKeepsInvariant : Prop :=
  ∀ s t : State, s.Inv → step s = .next t → t.Inv

/-- Both created states, one for each shift source, meet the invariant, and every operation of the host, a step with any
random byte among them, keeps it from every state (spec/10 R23, R24, spec/70 R260; the bounds are the spec's own decisions
D2 and D4, the zeros of the created states its D6, and canonical memory is the model's choice, notes/assumptions/6.md). -/
def Obligations.EveryOperationKeepsInvariant : Prop :=
  (∀ src : ShiftSrc, ({ State.reset with shiftSrc := src } : State).Inv) ∧
  ∀ (op : HostOp) (s : State), s.Inv → (perform op s).1.Inv

/-- A step that does not signal screen_dirty did not change the framebuffer (spec/44 R195, spec/10 R31; an inference the
spec marks as its own). -/
def Obligations.UnsignalledStepKeepsFramebuffer : Prop :=
  ∀ s t : State, step s = .next t → t.fb ≠ s.fb → ∃ e, t.result = .ok { screenDirty := true, soundEdge := e }

/-- spec/10 R27: sound_active is whether the sound timer is nonzero, and a change of it is reported as the sound edge of
the step or the tick that made it; a step that returns Blocked makes none. -/
def Obligations.SoundEdgeReportsChange : Prop :=
  (∀ s : State, s.soundActive = true ↔ s.st ≠ 0) ∧
  (∀ (s t : State) (sig : Signals), step s = .next t → t.result = .ok sig →
    sig.soundEdge = edgeOf s.soundActive t.soundActive) ∧
  (∀ s t : State, step s = .next t → t.result = .blocked → t.soundActive = s.soundActive) ∧
  (∀ s : State, (tick s).2 = edgeOf s.soundActive (tick s).1.soundActive)

/-- Only key_write and reset change the keypad: no step, tick, load or skip does (spec/10 R32, C3). -/
def Obligations.KeypadChangesOnlyByHost : Prop :=
  ∀ (op : HostOp) (s : State), (perform op s).1.keys ≠ s.keys →
    (∃ k b, op = .keyWrite k b) ∨ (op = .reset ∧ (perform op s).1.keys = 0)

/-- No operation changes the shift source (spec/10 R34; that it is kept over reset is the model's reading,
notes/assumptions/3.md). -/
def Obligations.ShiftSourceNeverChanges : Prop :=
  ∀ (op : HostOp) (s : State), (perform op s).1.shiftSrc = s.shiftSrc

/-- Of the steps, only CALL and RET touch the call stack (spec/10 R28). -/
def Obligations.StackChangesOnlyByCallAndRet : Prop :=
  ∀ s t : State, step s = .next t → (t.stack ≠ s.stack ∨ t.sp ≠ s.sp) →
    s.waitActive = false ∧
      (decode (fetch16 s.mem s.pc) = .form .ret ∨ ∃ nnn, decode (fetch16 s.mem s.pc) = .form (.call nnn))

/-! ### Control flow (spec/41) -/

/-- SYS is a no-op that moves PC to the next word (spec/41 R120: the spec's own decision D7). -/
def Obligations.SysIsNoOp : Prop :=
  ∀ (nnn : Addr) (s : State), ∃ t, exec (.sys nnn) s = .next t ∧ PcMoved s t 2 ∧ ReturnedOk t ∧
    Frame s t noReg noCell []

/-- JP goes to NNN, and JP V0 to NNN plus V0 mod 4096; nothing else changes (spec/41 R122, R128: that the offset
register is V0 is the spec's own decision D11). -/
def Obligations.JumpsSetPc : Prop :=
  ∀ (nnn : Addr) (s : State),
    (∃ t, exec (.jp nnn) s = .next t ∧ t.pc.toNat = nnn.toNat ∧ ReturnedOk t ∧ Frame s t noReg noCell []) ∧
    (∃ t, exec (.jpV0 nnn) s = .next t ∧ t.pc.toNat = (nnn.toNat + (s.readV 0).toNat) % 4096 ∧ ReturnedOk t ∧
      Frame s t noReg noCell [])

/-- spec/41 R124, R125, R126, R127: each skip form moves PC by 4 where its condition holds and by 2 where it does not;
nothing else changes. -/
def Obligations.SkipsCompareRegisters : Prop :=
  ∀ (x y : Reg) (nn : Byte) (s : State),
    (∃ t, exec (.seI x nn) s = .next t ∧ PcMoved s t (if s.readV x = nn then 4 else 2) ∧ ReturnedOk t ∧
      Frame s t noReg noCell []) ∧
    (∃ t, exec (.sneI x nn) s = .next t ∧ PcMoved s t (if s.readV x ≠ nn then 4 else 2) ∧ ReturnedOk t ∧
      Frame s t noReg noCell []) ∧
    (∃ t, exec (.seR x y) s = .next t ∧ PcMoved s t (if s.readV x = s.readV y then 4 else 2) ∧ ReturnedOk t ∧
      Frame s t noReg noCell []) ∧
    (∃ t, exec (.sneR x y) s = .next t ∧ PcMoved s t (if s.readV x ≠ s.readV y then 4 else 2) ∧ ReturnedOk t ∧
      Frame s t noReg noCell [])

/-- With room on the stack CALL pushes the address of the next word and jumps, every other entry and everything else
unchanged; with 16 entries it raises StackOverflow (spec/41 R123, spec/10 R29: that the next word's address is pushed is
the spec's own decision D26). -/
def Obligations.CallPushesReturnAddress : Prop :=
  ∀ (nnn : Addr) (s : State),
    (∀ h : s.sp.val < 16, ∃ t, exec (.call nnn) s = .next t ∧ t.pc.toNat = nnn.toNat ∧ ReturnedOk t ∧
      t.sp.val = s.sp.val + 1 ∧ (t.stack[s.sp.val]'h).toNat = (s.pc.toNat + 2) % 4096 ∧
      (∀ k : Fin 16, k.val ≠ s.sp.val → t.stack[k] = s.stack[k]) ∧ Frame s t noReg noCell [.callStack]) ∧
    (s.sp.val = 16 → exec (.call nnn) s = .fault (.stackOverflow s.pc (encode (.call nnn))))

/-- RET jumps to the top entry mod 4096 and takes it off, clearing no entry; with no entry it raises StackUnderflow
(spec/41 R121, spec/10 R30: that the entry is not cleared is the spec's own decision D27). -/
def Obligations.RetPopsReturnAddress : Prop :=
  ∀ s : State,
    (∀ k : Fin 16, s.sp.val = k.val + 1 → ∃ t, exec .ret s = .next t ∧ t.pc.toNat = s.stack[k].toNat % 4096 ∧
      ReturnedOk t ∧ t.sp.val = k.val ∧ t.stack = s.stack ∧ Frame s t noReg noCell [.callStack]) ∧
    (s.sp.val = 0 → exec .ret s = .fault (.stackUnderflow s.pc 0x00EE))

/-- A call and then a return goes on at the word after the call with the stack depth as before, and so again with every
valid entry (spec/95 L1.4 P-stack). -/
def Obligations.CallThenRetReturns : Prop :=
  ∀ (nnn : Addr) (s : State), s.sp.val < 16 → ∃ t u, exec (.call nnn) s = .next t ∧ exec .ret t = .next u ∧
    PcMoved s u 2 ∧ u.sp = s.sp ∧ (∀ k : Fin 16, k.val < s.sp.val → u.stack[k] = s.stack[k]) ∧
    Frame s u noReg noCell [.callStack]

/-! ### Register arithmetic and logic (spec/42) -/

/-- spec/42 R141, R142: LD VX, NN sets VX to NN, and ADD VX, NN adds it mod 256; no other register changes, so VF does
not where it is no destination. -/
def Obligations.ImmediateForms : Prop :=
  ∀ (x : Reg) (nn : Byte) (s : State),
    (∃ t, exec (.ldI8 x nn) s = .next t ∧ t.readV x = nn ∧ PcMoved s t 2 ∧ ReturnedOk t ∧
      Frame s t (onlyReg x) noCell []) ∧
    (∃ t, exec (.addI8 x nn) s = .next t ∧ (t.readV x).toNat = ((s.readV x).toNat + nn.toNat) % 256 ∧
      PcMoved s t 2 ∧ ReturnedOk t ∧ Frame s t (onlyReg x) noCell [])

/-- LD, OR, AND and XOR, bit by bit; no other register changes, VF included (spec/42 R143 to R146: that the logic forms
do not reset VF is the spec's own decision D10). -/
def Obligations.CopyAndLogic : Prop :=
  ∀ (x y : Reg) (s : State),
    (∃ t, exec (.ldR x y) s = .next t ∧ t.readV x = s.readV y ∧ PcMoved s t 2 ∧ ReturnedOk t ∧
      Frame s t (onlyReg x) noCell []) ∧
    (∃ t, exec (.orR x y) s = .next t ∧
      (∀ k, (t.readV x).getLsbD k = ((s.readV x).getLsbD k || (s.readV y).getLsbD k)) ∧ PcMoved s t 2 ∧ ReturnedOk t ∧
      Frame s t (onlyReg x) noCell []) ∧
    (∃ t, exec (.andR x y) s = .next t ∧
      (∀ k, (t.readV x).getLsbD k = ((s.readV x).getLsbD k && (s.readV y).getLsbD k)) ∧ PcMoved s t 2 ∧ ReturnedOk t ∧
      Frame s t (onlyReg x) noCell []) ∧
    (∃ t, exec (.xorR x y) s = .next t ∧
      (∀ k, (t.readV x).getLsbD k = ((s.readV x).getLsbD k ^^ (s.readV y).getLsbD k)) ∧ PcMoved s t 2 ∧ ReturnedOk t ∧
      Frame s t (onlyReg x) noCell [])

/-- spec/42 R147: ADD VX, VY gives the sum mod 256, and VF is 1 on a carry out of bit 7, else 0; where X is F, VF ends
with the flag. -/
def Obligations.AddSetsCarry : Prop :=
  ∀ (x y : Reg) (s : State), ∃ t, exec (.addR x y) s = .next t ∧
    (x ≠ regF → (t.readV x).toNat = ((s.readV x).toNat + (s.readV y).toNat) % 256) ∧
    t.readV regF = (if 256 ≤ (s.readV x).toNat + (s.readV y).toNat then 1 else 0) ∧
    PcMoved s t 2 ∧ ReturnedOk t ∧ Frame s t (regAndVF x) noCell []

/-- spec/42 R148, R150: SUB gives VX - VY mod 256 and SUBN gives VY - VX mod 256; VF is 1 where there is no borrow,
else 0; where X is F, VF ends with the flag. -/
def Obligations.SubtractSetsNotBorrow : Prop :=
  ∀ (x y : Reg) (s : State),
    (∃ t, exec (.sub x y) s = .next t ∧
      (x ≠ regF → (t.readV x).toNat = ((s.readV x).toNat + 256 - (s.readV y).toNat) % 256) ∧
      t.readV regF = (if (s.readV y).toNat ≤ (s.readV x).toNat then 1 else 0) ∧
      PcMoved s t 2 ∧ ReturnedOk t ∧ Frame s t (regAndVF x) noCell []) ∧
    (∃ t, exec (.subn x y) s = .next t ∧
      (x ≠ regF → (t.readV x).toNat = ((s.readV y).toNat + 256 - (s.readV x).toNat) % 256) ∧
      t.readV regF = (if (s.readV x).toNat ≤ (s.readV y).toNat then 1 else 0) ∧
      PcMoved s t 2 ∧ ReturnedOk t ∧ Frame s t (regAndVF x) noCell [])

/-- spec/42 R149, R151: the shifts move the source one bit, a 0 entering, and VF gets the bit shifted out; the source is
VX or VY by SHIFT_SRC, and both are covered; where X is F, VF ends with the flag. -/
def Obligations.ShiftsSetBitShiftedOut : Prop :=
  ∀ (x y : Reg) (s : State) (src : Nat),
    src = (s.readV (match s.shiftSrc with | .vx => x | .vy => y)).toNat →
    (∃ t, exec (.shr x y) s = .next t ∧ (x ≠ regF → (t.readV x).toNat = src / 2) ∧
      (t.readV regF).toNat = src % 2 ∧ PcMoved s t 2 ∧ ReturnedOk t ∧ Frame s t (regAndVF x) noCell []) ∧
    (∃ t, exec (.shl x y) s = .next t ∧ (x ≠ regF → (t.readV x).toNat = src * 2 % 256) ∧
      (t.readV regF).toNat = src / 128 ∧ PcMoved s t 2 ∧ ReturnedOk t ∧ Frame s t (regAndVF x) noCell [])

/-- RND puts the step's random byte, masked by NN, into VX (spec/42 R152); where the host fixed the byte it is that one,
and the statement holds for every byte a free draw may give (that the byte is free is the spec's own decision D23, and the
form of the argument the model's choice, notes/assumptions/1.md). -/
def Obligations.RandomByteIsMasked : Prop :=
  ∀ (x : Reg) (nn : Byte) (s : State), ∃ (r : Byte) (t : State), exec (.rnd x nn) s = .next t ∧
    (∀ q, s.rndIn = some q → r = q) ∧ t.readV x = r &&& nn ∧ PcMoved s t 2 ∧ ReturnedOk t ∧
    Frame s t (onlyReg x) noCell [.randomInput]

/-! ### Index register and memory transfers (spec/43) -/

/-- LD I sets I to NNN, and ADD I adds VX to it mod 4096; VF and every other register are unchanged (spec/43 R170, R171:
the wrap and the kept VF of ADD I are the spec's own decisions D4 and D5). -/
def Obligations.IndexForms : Prop :=
  (∀ (nnn : Addr) (s : State), ∃ t, exec (.ldIdx nnn) s = .next t ∧ t.i.toNat = nnn.toNat ∧ PcMoved s t 2 ∧
    ReturnedOk t ∧ Frame s t noReg noCell [.index]) ∧
  (∀ (x : Reg) (s : State), ∃ t, exec (.addIdx x) s = .next t ∧
    t.i.toNat = (s.i.toNat + (s.readV x).toNat) % 4096 ∧ PcMoved s t 2 ∧ ReturnedOk t ∧
    Frame s t noReg noCell [.index])

/-- LD F points I at the glyph of the low nibble of VX (spec/43 R172: the low nibble is the spec's own decision D12). -/
def Obligations.GlyphAddressInIndex : Prop :=
  ∀ (x : Reg) (s : State), ∃ t, exec (.ldF x) s = .next t ∧
    t.i.toNat = 0x050 + 5 * ((s.readV x).toNat % 16) ∧ PcMoved s t 2 ∧ ReturnedOk t ∧ Frame s t noReg noCell [.index]

/-- spec/43 R174: LD B stores the hundreds, tens and ones digits of VX at I, I + 1 and I + 2 mod 4096, and no other
cell changes. -/
def Obligations.BcdStoresThreeDigits : Prop :=
  ∀ (x : Reg) (s : State), ∃ t, exec (.ldB x) s = .next t ∧
    (t.readMem s.i.toNat).toNat = (s.readV x).toNat / 100 ∧
    (t.readMem (s.i.toNat + 1)).toNat = (s.readV x).toNat / 10 % 10 ∧
    (t.readMem (s.i.toNat + 2)).toNat = (s.readV x).toNat % 10 ∧
    PcMoved s t 2 ∧ ReturnedOk t ∧ Frame s t noReg (cellsFrom s.i.toNat 3) []

/-- spec/43 R175: the dump stores V0 to VX at I upward mod 4096; I and every other cell are unchanged. -/
def Obligations.DumpStoresRegisters : Prop :=
  ∀ (x : Reg) (s : State), ∃ t, exec (.stRegs x) s = .next t ∧
    (∀ k : Reg, k ≤ x → t.readMem (s.i.toNat + k.val) = s.readV k) ∧ PcMoved s t 2 ∧ ReturnedOk t ∧
    Frame s t noReg (cellsFrom s.i.toNat (x.val + 1)) []

/-- spec/43 R176: the load reads V0 to VX from I upward mod 4096; I, the registers above VX and memory are unchanged. -/
def Obligations.LoadReadsRegisters : Prop :=
  ∀ (x : Reg) (s : State), ∃ t, exec (.ldRegs x) s = .next t ∧
    (∀ k : Reg, k ≤ x → t.readV k = s.readMem (s.i.toNat + k.val)) ∧ PcMoved s t 2 ∧ ReturnedOk t ∧
    Frame s t (fun y => y ≤ x) noCell []

/-- A dump of V0 to VX, then instructions that leave I and memory alone, then a load of V0 to VX gives the dumped values
back (spec/43 R175, R176). -/
def Obligations.DumpThenLoadRestores : Prop :=
  ∀ (x : Reg) (s t u : State), exec (.stRegs x) s = .next t → u.i = t.i → u.mem = t.mem →
    ∃ w, exec (.ldRegs x) u = .next w ∧ ∀ k : Reg, k ≤ x → w.readV k = s.readV k

/-! ### Display (spec/44) -/

/-- CLS unlights every pixel and signals screen_dirty; nothing else changes, VF included (spec/44 R190: the signal is the
spec's own decision D19). -/
def Obligations.ClearScreenUnlightsAll : Prop :=
  ∀ s : State, ∃ t, exec .cls s = .next t ∧ (∀ px py, t.fb.pixel px py = false) ∧ PcMoved s t 2 ∧ ReturnedDirty t ∧
    Frame s t noReg noCell [.framebuffer]

/-- DRW inverts exactly the pixels a set sprite bit falls on; VF is 1 where one of them was lit before, else 0; it
signals screen_dirty (spec/44 R191; that bit 7 is the leftmost pixel is the spec's own decision D33, R192 its own
inference, and N = 0, R196, its own decision D16). -/
def Obligations.SpriteDrawInvertsHitPixels : Prop :=
  ∀ (x y : Reg) (n : Nibble) (s : State), ∃ t, exec (.drw x y n) s = .next t ∧
    (∀ px py, SpriteHits s x y n px py → t.fb.pixel px py = !s.fb.pixel px py) ∧
    (∀ px py, ¬ SpriteHits s x y n px py → t.fb.pixel px py = s.fb.pixel px py) ∧
    ((∃ px py, SpriteHits s x y n px py ∧ s.fb.pixel px py = true) → t.readV regF = 1) ∧
    ((∀ px py, SpriteHits s x y n px py → s.fb.pixel px py = false) → t.readV regF = 0) ∧
    PcMoved s t 2 ∧ ReturnedDirty t ∧ Frame s t (onlyReg regF) noCell [.framebuffer]

/-- Drawing the same sprite twice restores the framebuffer, and each draw's flag reflects its own pass: the second sets VF
to 1 exactly where a set bit falls on a pixel that was unlit before the first (spec/44 R191, R192). Where every hit pixel
was lit, R193 says otherwise, no ruling settles it, and following R191 is the model's choice, notes/assumptions/16.md.
Neither coordinate register is VF, which the first draw writes. -/
def Obligations.SecondDrawRestores : Prop :=
  ∀ (x y : Reg) (n : Nibble) (s : State), x ≠ regF → y ≠ regF →
    ∃ t u, exec (.drw x y n) s = .next t ∧ exec (.drw x y n) t = .next u ∧ u.fb = s.fb ∧
      ((∃ px py, SpriteHits s x y n px py ∧ s.fb.pixel px py = false) → u.readV regF = 1) ∧
      ((∀ px py, SpriteHits s x y n px py → s.fb.pixel px py = true) → u.readV regF = 0)

/-- The flag of the second draw as spec/44 R193 writes it: 1 if the sprite has any set bit. It is expected to FAIL: where
every pixel the sprite covers was lit, the second draw only lights pixels, and R191 gives 0. That the model follows R191
there is its choice, notes/assumptions/16.md. -/
def Obligations.SecondDrawFlagAsWritten : Prop :=
  ∀ (x y : Reg) (n : Nibble) (s t u : State), x ≠ regF → y ≠ regF →
    exec (.drw x y n) s = .next t → exec (.drw x y n) t = .next u →
      (∃ px py, SpriteHits s x y n px py) → u.readV regF = 1

/-! ### Keypad and timers (spec/45) -/

/-- SKP skips where the key of the low nibble of VX is pressed, SKNP where it is not; nothing else changes
(spec/45 R217, R218; the low nibble, R210, is the spec's own decision D13). -/
def Obligations.SkipsOnKeys : Prop :=
  ∀ (x : Reg) (s : State),
    (∃ t, exec (.skp x) s = .next t ∧
      PcMoved s t (if s.keys.getLsbD ((s.readV x).toNat % 16) = true then 4 else 2) ∧ ReturnedOk t ∧
      Frame s t noReg noCell []) ∧
    (∃ t, exec (.sknp x) s = .next t ∧
      PcMoved s t (if s.keys.getLsbD ((s.readV x).toNat % 16) = true then 2 else 4) ∧ ReturnedOk t ∧
      Frame s t noReg noCell [])

/-- LD VX, K enters the wait: the register and a snapshot of the keypad are held, PC stays and the step returns Blocked
(spec/45 R211; the snapshot is the spec's own decision D14). -/
def Obligations.KeyWaitBegins : Prop :=
  ∀ (x : Reg) (s : State), ∃ t, exec (.ldVxK x) s = .next t ∧ t.waitActive = true ∧ t.waitReg = x ∧
    t.waitPrev = s.keys ∧ t.pc = s.pc ∧ t.result = .blocked ∧ Frame s t noReg noCell [.keyWait]

/-- A pending wait: a poll that finds no newly pressed key samples the keypad and blocks; otherwise the least newly
pressed key goes to the waiting register and PC moves on (spec/45 R212; the snapshot and the least key are the spec's own
decisions D14 and D15). -/
def Obligations.KeyWaitPolls : Prop :=
  ∀ s : State, s.waitActive = true →
    (NoNewKey s → ∃ t, step s = .next t ∧ t.waitActive = true ∧ t.waitReg = s.waitReg ∧ t.waitPrev = s.keys ∧
      t.pc = s.pc ∧ t.result = .blocked ∧ Frame s t noReg noCell [.keyWait]) ∧
    (∀ k : Reg, s.keys.getLsbD k.val = true → s.waitPrev.getLsbD k.val = false →
      (∀ j : Reg, j < k → s.keys.getLsbD j.val = true → s.waitPrev.getLsbD j.val = true) →
      ∃ t, step s = .next t ∧ t.waitActive = false ∧ t.waitReg = s.waitReg ∧ t.waitPrev = s.waitPrev ∧
        (t.readV s.waitReg).toNat = k.val ∧ PcMoved s t 2 ∧ ReturnedOk t ∧ Frame s t (onlyReg s.waitReg) noCell [.keyWait])

/-- The possible hang of a run. While a key wait is pending no operation faults, and one ends the wait only if it is skip,
reset or a step that finds a newly pressed key (spec/60 R251). So under a schedule without skip and reset the wait hangs
forever, at the same PC, if no key is ever pressed after a poll found none new, or if the host never steps again
(spec/70 R268, spec/93 U9; the form of a schedule is the model's, notes/assumptions/22.md). -/
def Obligations.WaitNothingEndsHangs : Prop :=
  (∀ (op : HostOp) (s : State), s.waitActive = true →
    (∀ r, (perform op s).2 ≠ .faulted r) ∧
    ((perform op s).1.waitActive = false → op = .skip ∨ op = .reset ∨ ∃ rnd, op = .step rnd ∧ ¬ NoNewKey s)) ∧
  (∀ (ops : Nat → HostOp) (s : State), s.waitActive = true → (∀ n, ops n ≠ .skip ∧ ops n ≠ .reset) →
    (NoNewKey s ∧ ∀ n k, ops n ≠ .keyWrite k true) ∨ (∀ n rnd, ops n ≠ .step rnd) →
    Hangs ops s ∧ ∀ k, (afterOps ops s k).pc = s.pc ∧ (afterOps ops s k).waitReg = s.waitReg)

/-- spec/45 R213, R214: LD VX, DT copies the delay timer to VX, and LD DT, VX copies VX to it. -/
def Obligations.DelayTimerForms : Prop :=
  ∀ (x : Reg) (s : State),
    (∃ t, exec (.ldVxDt x) s = .next t ∧ t.readV x = s.dt ∧ PcMoved s t 2 ∧ ReturnedOk t ∧
      Frame s t (onlyReg x) noCell []) ∧
    (∃ t, exec (.ldDtVx x) s = .next t ∧ t.dt = s.readV x ∧ PcMoved s t 2 ∧ ReturnedOk t ∧
      Frame s t noReg noCell [.delayTimer])

/-- spec/45 R215: LD ST, VX copies VX to the sound timer and signals on where it leaves zero, off where it comes to
zero, and no edge otherwise. -/
def Obligations.SoundTimerForm : Prop :=
  ∀ (x : Reg) (s : State), ∃ (t : State) (e : SoundEdge), exec (.ldStVx x) s = .next t ∧ t.st = s.readV x ∧
    t.result = .ok { screenDirty := false, soundEdge := e } ∧
    (s.st = 0 → s.readV x ≠ 0 → e = .on) ∧ (s.st ≠ 0 → s.readV x = 0 → e = .off) ∧
    (s.st = 0 → s.readV x = 0 → e = .none) ∧ (s.st ≠ 0 → s.readV x ≠ 0 → e = .none) ∧
    PcMoved s t 2 ∧ Frame s t noReg noCell [.soundTimer]

/-! ### The host's operations (spec/60, spec/70) -/

/-- spec/60 R240, R243: a tick takes one from each timer, floored at zero, returns off exactly where the sound timer was
1 and no edge otherwise, and changes nothing else. -/
def Obligations.TickCountsDown : Prop :=
  ∀ s : State, ∃ t e, perform .tick s = (t, .ticked e) ∧ t.dt.toNat = s.dt.toNat - 1 ∧ t.st.toNat = s.st.toNat - 1 ∧
    e = (if s.st.toNat = 1 then .off else .none) ∧ t = { s with dt := t.dt, st := t.st }

/-- `k` ticks take `k` from each timer, floored at zero, and exactly the tick that finds the sound timer at its last
count returns off (spec/60 R242; its second point is the spec's own inference). -/
def Obligations.RepeatedTicksFloorAtZero : Prop :=
  ∀ (k : Nat) (s : State), (tickTimes k s).dt.toNat = s.dt.toNat - k ∧ (tickTimes k s).st.toNat = s.st.toNat - k ∧
    ((tick (tickTimes k s)).2 = .off ↔ s.st.toNat = k + 1)

/-- spec/60 R246: key_write sets the one key to the given value and changes nothing else. -/
def Obligations.KeyWriteSetsOneKey : Prop :=
  ∀ (k : Reg) (pressed : Bool) (s : State), ∃ t, perform (.keyWrite k pressed) s = (t, .none) ∧
    t.keys.getLsbD k.val = pressed ∧ (∀ j : Reg, j ≠ k → t.keys.getLsbD j.val = s.keys.getLsbD j.val) ∧
    t = { s with keys := t.keys }

/-- fb_read returns the framebuffer and changes nothing, and bit `7 - (x mod 8)` of byte `8 * y + x / 8` of its packed
view is the pixel at column x and row y (spec/60 R247; the packing is the spec's own decision D25). -/
def Obligations.FramebufferRead : Prop :=
  ∀ s : State, perform .fbRead s = (s, .framebuffer s.fb) ∧ (fbPacked s.fb).length = 256 ∧
    ∀ (px : Fin 64) (py : Fin 32),
      ((fbPacked s.fb).getD (8 * py.val + px.val / 8) 0).getLsbD (7 - px.val % 8) = s.fb.pixel px py

/-- skip moves PC to the next word and drops a pending wait, and changes nothing else (spec/60 R236: the operation is
the spec's own decision D18). -/
def Obligations.SkipMovesPastInstruction : Prop :=
  ∀ s : State, ∃ t, perform .skip s = (t, .none) ∧ PcMoved s t 2 ∧ t.waitActive = false ∧
    t = { s with pc := t.pc, waitActive := false }

/-- load copies at most 3584 bytes to 0x200 upward and changes no other cell and nothing else; a longer image changes
nothing (spec/70 R263; the all-or-nothing failure and the frame are the spec's own decision D21). -/
def Obligations.LoadCopiesOrFails : Prop :=
  ∀ (bytes : List Byte) (s : State),
    (bytes.length ≤ 3584 → ∃ t, perform (.load bytes) s = (t, .loaded .ok) ∧
      (∀ k, k < bytes.length → t.readMem (0x200 + k) = bytes.getD k 0) ∧ t.pc = s.pc ∧ t.result = s.result ∧
      Frame s t noReg (cellsFrom 0x200 bytes.length) []) ∧
    (3584 < bytes.length → perform (.load bytes) s = (s, .loaded .tooLarge))

/-- After reset PC is 0x200, the font image of spec/70 R261 stands at 0x050 to 0x09F, every other cell is 0, and the
registers, the stack, the framebuffer, the keypad and the wait are cleared (spec/10 R37, spec/70 R260; that the registers,
timers, stack and wait are 0 is the spec's own decision D6). -/
def Obligations.ResetRestoresState : Prop :=
  ∀ s : State, ∃ t, perform .reset s = (t, .none) ∧ t.pc = 0x200 ∧ t.i = 0 ∧ t.dt = 0 ∧ t.st = 0 ∧ t.sp = 0 ∧
    (∀ x, t.readV x = 0) ∧ (∀ k : Fin 16, t.stack[k] = 0) ∧ (∀ px py, t.fb.pixel px py = false) ∧ t.keys = 0 ∧
    t.waitActive = false ∧ t.waitReg = 0 ∧ t.waitPrev = 0 ∧
    (∀ a, a % 4096 < 0x050 ∨ 0x09F < a % 4096 → t.readMem a = 0) ∧
    (List.range 80).map (fun k => t.readMem (0x050 + k)) =
      [0xF0, 0x90, 0x90, 0x90, 0xF0] ++ [0x20, 0x60, 0x20, 0x20, 0x70] ++ [0xF0, 0x10, 0xF0, 0x80, 0xF0] ++
      [0xF0, 0x10, 0xF0, 0x10, 0xF0] ++ [0x90, 0x90, 0xF0, 0x10, 0x10] ++ [0xF0, 0x80, 0xF0, 0x10, 0xF0] ++
      [0xF0, 0x80, 0xF0, 0x90, 0xF0] ++ [0xF0, 0x10, 0x20, 0x40, 0x40] ++ [0xF0, 0x90, 0xF0, 0x90, 0xF0] ++
      [0xF0, 0x90, 0xF0, 0x10, 0xF0] ++ [0xF0, 0x90, 0xF0, 0x90, 0x90] ++ [0xE0, 0x90, 0xE0, 0x90, 0xE0] ++
      [0xF0, 0x80, 0x80, 0x80, 0xF0] ++ [0xE0, 0x90, 0x90, 0x90, 0xE0] ++ [0xF0, 0x80, 0xF0, 0x80, 0xF0] ++
      [0xF0, 0x80, 0xF0, 0x80, 0x80]
end

