-- ==== Sys2Proof/Laws/Decode.lean ====
section
/-! SUPPORT. The fields of a word as numbers, the fields of an assembled word, and a word from its fields
(spec/30 R81, R83). -/

namespace Sys2Proof

/-! ### Words and fields as numbers -/

theorem toNat_append_eq {n m : Nat} (x : BitVec n) (y : BitVec m) :
    (x ++ y).toNat = x.toNat * 2 ^ m + y.toNat := by
  rw [BitVec.toNat_append, ← Nat.shiftLeft_add_eq_or_of_lt y.isLt, Nat.shiftLeft_eq]

theorem fieldO_toNat (w : Word) : (fieldO w).toNat = w.toNat / 4096 := by
  have := w.isLt
  simp only [fieldO, BitVec.extractLsb'_toNat, Nat.shiftRight_eq_div_pow]
  omega

theorem fieldX_val (w : Word) : (fieldX w).val = w.toNat / 256 % 16 := by
  simp [fieldX, Nat.shiftRight_eq_div_pow]

theorem fieldY_val (w : Word) : (fieldY w).val = w.toNat / 16 % 16 := by
  simp [fieldY, Nat.shiftRight_eq_div_pow]

theorem fieldN_toNat (w : Word) : (fieldN w).toNat = w.toNat % 16 := by
  simp [fieldN, BitVec.extractLsb'_toNat]

theorem fieldNN_toNat (w : Word) : (fieldNN w).toNat = w.toNat % 256 := by
  simp [fieldNN, BitVec.extractLsb'_toNat]

theorem fieldNNN_toNat (w : Word) : (fieldNNN w).toNat = w.toNat % 4096 := by
  simp [fieldNNN, BitVec.extractLsb'_toNat]

theorem wordONNN_toNat (o : Nibble) (nnn : Addr) : (wordONNN o nnn).toNat = o.toNat * 4096 + nnn.toNat :=
  toNat_append_eq o nnn

theorem wordOXNN_toNat (o : Nibble) (x : Reg) (nn : Byte) :
    (wordOXNN o x nn).toNat = o.toNat * 4096 + x.val * 256 + nn.toNat := by
  refine (toNat_append_eq (o ++ (BitVec.ofFin x : Nibble)) nn).trans ?_
  rw [toNat_append_eq, show (BitVec.ofFin x : Nibble).toNat = x.val from rfl]
  omega

theorem wordOXYN_toNat (o : Nibble) (x y : Reg) (n : Nibble) :
    (wordOXYN o x y n).toNat = o.toNat * 4096 + x.val * 256 + y.val * 16 + n.toNat := by
  refine (toNat_append_eq (o ++ (BitVec.ofFin x : Nibble) ++ (BitVec.ofFin y : Nibble)) n).trans ?_
  rw [toNat_append_eq, toNat_append_eq, show (BitVec.ofFin x : Nibble).toNat = x.val from rfl,
    show (BitVec.ofFin y : Nibble).toNat = y.val from rfl]
  omega

/-! ### The fields of an assembled word -/

@[simp] theorem fieldO_wordONNN (o : Nibble) (nnn : Addr) : fieldO (wordONNN o nnn) = o := by
  apply BitVec.eq_of_toNat_eq
  rw [fieldO_toNat, wordONNN_toNat]
  omega

@[simp] theorem fieldNNN_wordONNN (o : Nibble) (nnn : Addr) : fieldNNN (wordONNN o nnn) = nnn := by
  apply BitVec.eq_of_toNat_eq
  rw [fieldNNN_toNat, wordONNN_toNat]
  omega

@[simp] theorem fieldO_wordOXNN (o : Nibble) (x : Reg) (nn : Byte) : fieldO (wordOXNN o x nn) = o := by
  apply BitVec.eq_of_toNat_eq
  rw [fieldO_toNat, wordOXNN_toNat]
  omega

@[simp] theorem fieldX_wordOXNN (o : Nibble) (x : Reg) (nn : Byte) : fieldX (wordOXNN o x nn) = x := by
  apply Fin.ext
  rw [fieldX_val, wordOXNN_toNat]
  omega

@[simp] theorem fieldNN_wordOXNN (o : Nibble) (x : Reg) (nn : Byte) : fieldNN (wordOXNN o x nn) = nn := by
  apply BitVec.eq_of_toNat_eq
  rw [fieldNN_toNat, wordOXNN_toNat]
  omega

@[simp] theorem fieldO_wordOXYN (o : Nibble) (x y : Reg) (n : Nibble) : fieldO (wordOXYN o x y n) = o := by
  apply BitVec.eq_of_toNat_eq
  rw [fieldO_toNat, wordOXYN_toNat]
  omega

@[simp] theorem fieldX_wordOXYN (o : Nibble) (x y : Reg) (n : Nibble) : fieldX (wordOXYN o x y n) = x := by
  apply Fin.ext
  rw [fieldX_val, wordOXYN_toNat]
  omega

@[simp] theorem fieldY_wordOXYN (o : Nibble) (x y : Reg) (n : Nibble) : fieldY (wordOXYN o x y n) = y := by
  apply Fin.ext
  rw [fieldY_val, wordOXYN_toNat]
  omega

@[simp] theorem fieldN_wordOXYN (o : Nibble) (x y : Reg) (n : Nibble) : fieldN (wordOXYN o x y n) = n := by
  apply BitVec.eq_of_toNat_eq
  rw [fieldN_toNat, wordOXYN_toNat]
  omega

/-! ### A word from its fields -/

theorem wordONNN_fields (w : Word) : wordONNN (fieldO w) (fieldNNN w) = w := by
  apply BitVec.eq_of_toNat_eq
  rw [wordONNN_toNat, fieldO_toNat, fieldNNN_toNat]
  omega

theorem wordOXNN_fields (w : Word) : wordOXNN (fieldO w) (fieldX w) (fieldNN w) = w := by
  apply BitVec.eq_of_toNat_eq
  rw [wordOXNN_toNat, fieldO_toNat, fieldX_val, fieldNN_toNat]
  omega

theorem wordOXYN_fields (w : Word) : wordOXYN (fieldO w) (fieldX w) (fieldY w) (fieldN w) = w := by
  apply BitVec.eq_of_toNat_eq
  rw [wordOXYN_toNat, fieldO_toNat, fieldX_val, fieldY_val, fieldN_toNat]
  omega

/-! ### The bytes of a word -/

@[simp] theorem highByte_wordOfBytes (hi lo : Byte) : highByte (wordOfBytes hi lo) = hi := by
  apply BitVec.eq_of_toNat_eq
  simp only [highByte, BitVec.extractLsb'_toNat, Nat.shiftRight_eq_div_pow]
  rw [show (wordOfBytes hi lo).toNat = hi.toNat * 2 ^ 8 + lo.toNat from toNat_append_eq hi lo]
  omega

@[simp] theorem lowByte_wordOfBytes (hi lo : Byte) : lowByte (wordOfBytes hi lo) = lo := by
  apply BitVec.eq_of_toNat_eq
  simp only [lowByte, BitVec.extractLsb'_toNat, Nat.shiftRight_zero]
  rw [show (wordOfBytes hi lo).toNat = hi.toNat * 2 ^ 8 + lo.toNat from toNat_append_eq hi lo]
  omega

theorem wordOfBytes_toNat (hi lo : Byte) : (wordOfBytes hi lo).toNat = 256 * hi.toNat + lo.toNat := by
  rw [show (wordOfBytes hi lo).toNat = hi.toNat * 2 ^ 8 + lo.toNat from toNat_append_eq hi lo]
  omega

/-! ### The fixed bits of a row -/

theorem and_F000 (w : Word) : w &&& 0xF000#16 = wordONNN (fieldO w) 0 := by
  apply BitVec.eq_of_getLsbD_eq
  intro i hi
  rw [show (wordONNN (fieldO w) 0).getLsbD i = _ from BitVec.getLsbD_append]
  interval_cases i <;> simp [fieldO]

theorem and_F00F (w : Word) : w &&& 0xF00F#16 = wordOXYN (fieldO w) 0 0 (fieldN w) := by
  apply BitVec.eq_of_getLsbD_eq
  intro i hi
  rw [show (wordOXYN (fieldO w) 0 0 (fieldN w)).getLsbD i = _ from BitVec.getLsbD_append, BitVec.getLsbD_append,
    BitVec.getLsbD_append]
  interval_cases i <;> simp [fieldO, fieldN]

theorem and_F0FF (w : Word) : w &&& 0xF0FF#16 = wordOXNN (fieldO w) 0 (fieldNN w) := by
  apply BitVec.eq_of_getLsbD_eq
  intro i hi
  rw [show (wordOXNN (fieldO w) 0 (fieldNN w)).getLsbD i = _ from BitVec.getLsbD_append, BitVec.getLsbD_append]
  interval_cases i <;> simp [fieldO, fieldNN]

end Sys2Proof
end

