-- ==== Sys2Proof/Laws/Memory.lean ====
section
/-! SUPPORT. What memory reads after a write, that every write keeps the canonical form, and what a run of bytes leaves. -/

namespace Sys2Proof.Machine

theorem Memory.lookup_place_self (a : Nat) (b : Byte) (m : Memory) (h : Memory.lookup m a = none) :
    Memory.lookup (Memory.place a b m) a = some b := by
  induction m with
  | nil => simp [Memory.place, Memory.lookup]
  | cons c m ih =>
    rw [Memory.lookup] at h
    split at h
    · simp at h
    · rw [Memory.place]
      split <;> simp [Memory.lookup, *]

theorem Memory.lookup_place_ne (a k : Nat) (b : Byte) (m : Memory) (h : a ≠ k) :
    Memory.lookup (Memory.place a b m) k = Memory.lookup m k := by
  induction m with
  | nil => simp [Memory.place, Memory.lookup, h]
  | cons c m ih =>
    rw [Memory.place]
    split <;> simp [Memory.lookup, h, ih]

theorem Memory.lookup_without (a k : Nat) (m : Memory) :
    Memory.lookup (m.without a) k = if k = a then none else Memory.lookup m k := by
  unfold Memory.without
  induction m with
  | nil => simp [Memory.lookup]
  | cons c m ih =>
    by_cases hc : c.1 = a
    · rw [List.filter_cons_of_neg (by simp [hc]), ih, Memory.lookup]
      by_cases hk : k = a
      · simp [hk]
      · simp [hk, hc, Ne.symm hk]
    · rw [List.filter_cons_of_pos (by simp [hc]), Memory.lookup, ih, Memory.lookup]
      by_cases hk : k = a
      · simp [hk, hc]
      · simp [hk]

/-- A read after a write (spec/20 R52), whatever the list. -/
theorem Memory.readByte_writeByte (m : Memory) (a k : Nat) (b : Byte) :
    (m.writeByte a b).readByte k = if k % 4096 = a % 4096 then b else m.readByte k := by
  unfold Memory.readByte Memory.writeByte
  by_cases hk : k % 4096 = a % 4096
  · by_cases hb : b = resetByte (a % 4096)
    · simp [hb, hk, Memory.lookup_without]
    · simp [hb, hk, Memory.lookup_place_self, Memory.lookup_without]
  · by_cases hb : b = resetByte (a % 4096)
    · simp [hb, hk, Memory.lookup_without]
    · simp [hb, hk, Memory.lookup_place_ne _ _ _ _ (Ne.symm hk), Memory.lookup_without]

/-- An address is taken mod 4096 (spec/20 R51). -/
theorem Memory.readByte_mod (m : Memory) (a : Nat) : m.readByte (a % 4096) = m.readByte a := by
  simp [Memory.readByte]

/-- A cell no byte of the run falls on reads as before. -/
theorem Memory.readByte_writeBytes_outside (bs : List Byte) (m : Memory) (a k : Nat)
    (h : ∀ j, j < bs.length → k % 4096 ≠ (a + j) % 4096) : (m.writeBytes a bs).readByte k = m.readByte k := by
  induction bs generalizing m a with
  | nil => rfl
  | cons b bs ih =>
    rw [Memory.writeBytes, ih, Memory.readByte_writeByte, if_neg]
    · simpa using h 0 (by simp)
    · intro j hj
      have := h (j + 1) (by simpa using hj)
      rwa [show a + 1 + j = a + (j + 1) by omega]

/-- A run of at most 4096 bytes puts its `j`-th byte at `a + j`. -/
theorem Memory.readByte_writeBytes_inside (bs : List Byte) (m : Memory) (a j : Nat) (hlen : bs.length ≤ 4096)
    (hj : j < bs.length) : (m.writeBytes a bs).readByte (a + j) = bs.getD j 0 := by
  induction bs generalizing m a j with
  | nil => simp at hj
  | cons b bs ih =>
    rw [List.length_cons] at hlen hj
    cases j with
    | zero =>
      rw [Memory.writeBytes, Memory.readByte_writeBytes_outside, Memory.readByte_writeByte, if_pos (by simp)]
      · rfl
      · intro j hj; omega
    | succ j =>
      rw [Memory.writeBytes, show a + (j + 1) = a + 1 + j by omega, ih _ _ _ (by omega) (by omega)]
      rfl

/-! ### The canonical form -/

theorem Memory.wf_cons (c : Host.Cell) (m : Memory) : Memory.wf (c :: m) = true ↔
    (c.1 < 4096 ∧ c.2 ≠ resetByte c.1 ∧ (∀ d ∈ m, c.1 < d.1)) ∧ Memory.wf m = true := by
  simp [Memory.wf, and_assoc]

theorem Memory.wf_filter (p : Host.Cell → Bool) (m : Memory) (h : m.wf = true) :
    Memory.wf (m.filter p) = true := by
  induction m with
  | nil => rfl
  | cons c m ih =>
    obtain ⟨⟨h1, h2, h3⟩, h4⟩ := (Memory.wf_cons c m).1 h
    by_cases hp : p c = true
    · rw [List.filter_cons_of_pos hp, Memory.wf_cons]
      exact ⟨⟨h1, h2, fun d hd => h3 d (List.mem_filter.1 hd).1⟩, ih h4⟩
    · rw [List.filter_cons_of_neg hp]
      exact ih h4

theorem Memory.mem_place (a : Nat) (b : Byte) (m : Memory) (d : Host.Cell) :
    d ∈ Memory.place a b m ↔ d = (a, b) ∨ d ∈ m := by
  induction m with
  | nil => simp [Memory.place]
  | cons c m ih =>
    rw [Memory.place]
    split
    · simp
    · simp only [List.mem_cons, ih]
      tauto

theorem Memory.wf_place (a : Nat) (b : Byte) (m : Memory) (h : m.wf = true) (ha : a < 4096) (hb : b ≠ resetByte a)
    (hm : ∀ d ∈ m, d.1 ≠ a) : Memory.wf (Memory.place a b m) = true := by
  induction m with
  | nil => simp [Memory.place, ha, hb, Memory.wf]
  | cons c m ih =>
    obtain ⟨⟨h1, h2, h3⟩, h4⟩ := (Memory.wf_cons c m).1 h
    rw [Memory.place]
    split
    next hlt =>
      rw [Memory.wf_cons]
      refine ⟨⟨ha, hb, fun d hd => ?_⟩, h⟩
      rcases List.mem_cons.1 hd with rfl | hd
      · exact hlt
      · exact hlt.trans (h3 d hd)
    next hge =>
      rw [Memory.wf_cons]
      refine ⟨⟨h1, h2, fun d hd => ?_⟩, ih h4 (fun d hd => hm d (List.mem_cons_of_mem c hd))⟩
      have hne := hm c List.mem_cons_self
      rcases (Memory.mem_place a b m d).1 hd with rfl | hd
      · simp only; omega
      · exact h3 d hd

/-- A write keeps the canonical form. -/
theorem Memory.wf_writeByte (m : Memory) (a : Nat) (b : Byte) (h : m.wf = true) : (m.writeByte a b).wf = true := by
  unfold Memory.writeByte
  split
  · exact Memory.wf_filter _ m h
  · exact Memory.wf_place _ _ _ (Memory.wf_filter _ m h) (Nat.mod_lt a (by decide)) ‹_›
      (fun d hd => by simpa using (List.mem_filter.1 hd).2)

/-- A run of writes keeps the canonical form. -/
theorem Memory.wf_writeBytes (bs : List Byte) (m : Memory) (a : Nat) (h : m.wf = true) :
    (m.writeBytes a bs).wf = true := by
  induction bs generalizing m a with
  | nil => exact h
  | cons b bs ih => exact ih _ _ (Memory.wf_writeByte m a b h)

end Sys2Proof.Machine
end

