-- ==== Sys2Proof/Laws/State.lean ====
section
/-! SUPPORT. One lemma per field per update of the state, each true by `rfl`, so that no proof unfolds a record update;
and what the two register reads see after each update. -/

namespace Sys2Proof.Machine

/-! ### `writeV` -/

@[simp] theorem State.writeV_mem (s : State) (x : Reg) (b : Byte) : (s.writeV x b).mem = s.mem := rfl
@[simp] theorem State.writeV_v (s : State) (x : Reg) (b : Byte) : (s.writeV x b).v = s.v.set x b := rfl
@[simp] theorem State.writeV_i (s : State) (x : Reg) (b : Byte) : (s.writeV x b).i = s.i := rfl
@[simp] theorem State.writeV_pc (s : State) (x : Reg) (b : Byte) : (s.writeV x b).pc = s.pc := rfl
@[simp] theorem State.writeV_dt (s : State) (x : Reg) (b : Byte) : (s.writeV x b).dt = s.dt := rfl
@[simp] theorem State.writeV_st (s : State) (x : Reg) (b : Byte) : (s.writeV x b).st = s.st := rfl
@[simp] theorem State.writeV_stack (s : State) (x : Reg) (b : Byte) : (s.writeV x b).stack = s.stack := rfl
@[simp] theorem State.writeV_sp (s : State) (x : Reg) (b : Byte) : (s.writeV x b).sp = s.sp := rfl
@[simp] theorem State.writeV_fb (s : State) (x : Reg) (b : Byte) : (s.writeV x b).fb = s.fb := rfl
@[simp] theorem State.writeV_keys (s : State) (x : Reg) (b : Byte) : (s.writeV x b).keys = s.keys := rfl
@[simp] theorem State.writeV_waitActive (s : State) (x : Reg) (b : Byte) : (s.writeV x b).waitActive = s.waitActive := rfl
@[simp] theorem State.writeV_waitReg (s : State) (x : Reg) (b : Byte) : (s.writeV x b).waitReg = s.waitReg := rfl
@[simp] theorem State.writeV_waitPrev (s : State) (x : Reg) (b : Byte) : (s.writeV x b).waitPrev = s.waitPrev := rfl
@[simp] theorem State.writeV_shiftSrc (s : State) (x : Reg) (b : Byte) : (s.writeV x b).shiftSrc = s.shiftSrc := rfl
@[simp] theorem State.writeV_result (s : State) (x : Reg) (b : Byte) : (s.writeV x b).result = s.result := rfl
@[simp] theorem State.writeV_rndIn (s : State) (x : Reg) (b : Byte) : (s.writeV x b).rndIn = s.rndIn := rfl
@[simp] theorem State.writeV_draws (s : State) (x : Reg) (b : Byte) : (s.writeV x b).draws = s.draws := rfl

/-! ### `writeI` -/

@[simp] theorem State.writeI_mem (s : State) (a : Nat) : (s.writeI a).mem = s.mem := rfl
@[simp] theorem State.writeI_v (s : State) (a : Nat) : (s.writeI a).v = s.v := rfl
@[simp] theorem State.writeI_i (s : State) (a : Nat) : (s.writeI a).i = addr12 a := rfl
@[simp] theorem State.writeI_pc (s : State) (a : Nat) : (s.writeI a).pc = s.pc := rfl
@[simp] theorem State.writeI_dt (s : State) (a : Nat) : (s.writeI a).dt = s.dt := rfl
@[simp] theorem State.writeI_st (s : State) (a : Nat) : (s.writeI a).st = s.st := rfl
@[simp] theorem State.writeI_stack (s : State) (a : Nat) : (s.writeI a).stack = s.stack := rfl
@[simp] theorem State.writeI_sp (s : State) (a : Nat) : (s.writeI a).sp = s.sp := rfl
@[simp] theorem State.writeI_fb (s : State) (a : Nat) : (s.writeI a).fb = s.fb := rfl
@[simp] theorem State.writeI_keys (s : State) (a : Nat) : (s.writeI a).keys = s.keys := rfl
@[simp] theorem State.writeI_waitActive (s : State) (a : Nat) : (s.writeI a).waitActive = s.waitActive := rfl
@[simp] theorem State.writeI_waitReg (s : State) (a : Nat) : (s.writeI a).waitReg = s.waitReg := rfl
@[simp] theorem State.writeI_waitPrev (s : State) (a : Nat) : (s.writeI a).waitPrev = s.waitPrev := rfl
@[simp] theorem State.writeI_shiftSrc (s : State) (a : Nat) : (s.writeI a).shiftSrc = s.shiftSrc := rfl
@[simp] theorem State.writeI_result (s : State) (a : Nat) : (s.writeI a).result = s.result := rfl
@[simp] theorem State.writeI_rndIn (s : State) (a : Nat) : (s.writeI a).rndIn = s.rndIn := rfl
@[simp] theorem State.writeI_draws (s : State) (a : Nat) : (s.writeI a).draws = s.draws := rfl

/-! ### `writeDT` -/

@[simp] theorem State.writeDT_mem (s : State) (b : Byte) : (s.writeDT b).mem = s.mem := rfl
@[simp] theorem State.writeDT_v (s : State) (b : Byte) : (s.writeDT b).v = s.v := rfl
@[simp] theorem State.writeDT_i (s : State) (b : Byte) : (s.writeDT b).i = s.i := rfl
@[simp] theorem State.writeDT_pc (s : State) (b : Byte) : (s.writeDT b).pc = s.pc := rfl
@[simp] theorem State.writeDT_dt (s : State) (b : Byte) : (s.writeDT b).dt = b := rfl
@[simp] theorem State.writeDT_st (s : State) (b : Byte) : (s.writeDT b).st = s.st := rfl
@[simp] theorem State.writeDT_stack (s : State) (b : Byte) : (s.writeDT b).stack = s.stack := rfl
@[simp] theorem State.writeDT_sp (s : State) (b : Byte) : (s.writeDT b).sp = s.sp := rfl
@[simp] theorem State.writeDT_fb (s : State) (b : Byte) : (s.writeDT b).fb = s.fb := rfl
@[simp] theorem State.writeDT_keys (s : State) (b : Byte) : (s.writeDT b).keys = s.keys := rfl
@[simp] theorem State.writeDT_waitActive (s : State) (b : Byte) : (s.writeDT b).waitActive = s.waitActive := rfl
@[simp] theorem State.writeDT_waitReg (s : State) (b : Byte) : (s.writeDT b).waitReg = s.waitReg := rfl
@[simp] theorem State.writeDT_waitPrev (s : State) (b : Byte) : (s.writeDT b).waitPrev = s.waitPrev := rfl
@[simp] theorem State.writeDT_shiftSrc (s : State) (b : Byte) : (s.writeDT b).shiftSrc = s.shiftSrc := rfl
@[simp] theorem State.writeDT_result (s : State) (b : Byte) : (s.writeDT b).result = s.result := rfl
@[simp] theorem State.writeDT_rndIn (s : State) (b : Byte) : (s.writeDT b).rndIn = s.rndIn := rfl
@[simp] theorem State.writeDT_draws (s : State) (b : Byte) : (s.writeDT b).draws = s.draws := rfl

/-! ### `writeST` -/

@[simp] theorem State.writeST_mem (s : State) (b : Byte) : (s.writeST b).mem = s.mem := rfl
@[simp] theorem State.writeST_v (s : State) (b : Byte) : (s.writeST b).v = s.v := rfl
@[simp] theorem State.writeST_i (s : State) (b : Byte) : (s.writeST b).i = s.i := rfl
@[simp] theorem State.writeST_pc (s : State) (b : Byte) : (s.writeST b).pc = s.pc := rfl
@[simp] theorem State.writeST_dt (s : State) (b : Byte) : (s.writeST b).dt = s.dt := rfl
@[simp] theorem State.writeST_st (s : State) (b : Byte) : (s.writeST b).st = b := rfl
@[simp] theorem State.writeST_stack (s : State) (b : Byte) : (s.writeST b).stack = s.stack := rfl
@[simp] theorem State.writeST_sp (s : State) (b : Byte) : (s.writeST b).sp = s.sp := rfl
@[simp] theorem State.writeST_fb (s : State) (b : Byte) : (s.writeST b).fb = s.fb := rfl
@[simp] theorem State.writeST_keys (s : State) (b : Byte) : (s.writeST b).keys = s.keys := rfl
@[simp] theorem State.writeST_waitActive (s : State) (b : Byte) : (s.writeST b).waitActive = s.waitActive := rfl
@[simp] theorem State.writeST_waitReg (s : State) (b : Byte) : (s.writeST b).waitReg = s.waitReg := rfl
@[simp] theorem State.writeST_waitPrev (s : State) (b : Byte) : (s.writeST b).waitPrev = s.waitPrev := rfl
@[simp] theorem State.writeST_shiftSrc (s : State) (b : Byte) : (s.writeST b).shiftSrc = s.shiftSrc := rfl
@[simp] theorem State.writeST_result (s : State) (b : Byte) : (s.writeST b).result = s.result := rfl
@[simp] theorem State.writeST_rndIn (s : State) (b : Byte) : (s.writeST b).rndIn = s.rndIn := rfl
@[simp] theorem State.writeST_draws (s : State) (b : Byte) : (s.writeST b).draws = s.draws := rfl

/-! ### `store` -/

@[simp] theorem State.store_mem (s : State) (a : Nat) (bs : List Byte) : (s.store a bs).mem = s.mem.writeBytes a bs := rfl
@[simp] theorem State.store_v (s : State) (a : Nat) (bs : List Byte) : (s.store a bs).v = s.v := rfl
@[simp] theorem State.store_i (s : State) (a : Nat) (bs : List Byte) : (s.store a bs).i = s.i := rfl
@[simp] theorem State.store_pc (s : State) (a : Nat) (bs : List Byte) : (s.store a bs).pc = s.pc := rfl
@[simp] theorem State.store_dt (s : State) (a : Nat) (bs : List Byte) : (s.store a bs).dt = s.dt := rfl
@[simp] theorem State.store_st (s : State) (a : Nat) (bs : List Byte) : (s.store a bs).st = s.st := rfl
@[simp] theorem State.store_stack (s : State) (a : Nat) (bs : List Byte) : (s.store a bs).stack = s.stack := rfl
@[simp] theorem State.store_sp (s : State) (a : Nat) (bs : List Byte) : (s.store a bs).sp = s.sp := rfl
@[simp] theorem State.store_fb (s : State) (a : Nat) (bs : List Byte) : (s.store a bs).fb = s.fb := rfl
@[simp] theorem State.store_keys (s : State) (a : Nat) (bs : List Byte) : (s.store a bs).keys = s.keys := rfl
@[simp] theorem State.store_waitActive (s : State) (a : Nat) (bs : List Byte) : (s.store a bs).waitActive = s.waitActive := rfl
@[simp] theorem State.store_waitReg (s : State) (a : Nat) (bs : List Byte) : (s.store a bs).waitReg = s.waitReg := rfl
@[simp] theorem State.store_waitPrev (s : State) (a : Nat) (bs : List Byte) : (s.store a bs).waitPrev = s.waitPrev := rfl
@[simp] theorem State.store_shiftSrc (s : State) (a : Nat) (bs : List Byte) : (s.store a bs).shiftSrc = s.shiftSrc := rfl
@[simp] theorem State.store_result (s : State) (a : Nat) (bs : List Byte) : (s.store a bs).result = s.result := rfl
@[simp] theorem State.store_rndIn (s : State) (a : Nat) (bs : List Byte) : (s.store a bs).rndIn = s.rndIn := rfl
@[simp] theorem State.store_draws (s : State) (a : Nat) (bs : List Byte) : (s.store a bs).draws = s.draws := rfl

/-! ### `loadRegs` -/

@[simp] theorem State.loadRegs_mem (s : State) (x : Reg) (a : Nat) : (s.loadRegs x a).mem = s.mem := rfl
@[simp] theorem State.loadRegs_v (s : State) (x : Reg) (a : Nat) : (s.loadRegs x a).v = s.loadedV x a := rfl
@[simp] theorem State.loadRegs_i (s : State) (x : Reg) (a : Nat) : (s.loadRegs x a).i = s.i := rfl
@[simp] theorem State.loadRegs_pc (s : State) (x : Reg) (a : Nat) : (s.loadRegs x a).pc = s.pc := rfl
@[simp] theorem State.loadRegs_dt (s : State) (x : Reg) (a : Nat) : (s.loadRegs x a).dt = s.dt := rfl
@[simp] theorem State.loadRegs_st (s : State) (x : Reg) (a : Nat) : (s.loadRegs x a).st = s.st := rfl
@[simp] theorem State.loadRegs_stack (s : State) (x : Reg) (a : Nat) : (s.loadRegs x a).stack = s.stack := rfl
@[simp] theorem State.loadRegs_sp (s : State) (x : Reg) (a : Nat) : (s.loadRegs x a).sp = s.sp := rfl
@[simp] theorem State.loadRegs_fb (s : State) (x : Reg) (a : Nat) : (s.loadRegs x a).fb = s.fb := rfl
@[simp] theorem State.loadRegs_keys (s : State) (x : Reg) (a : Nat) : (s.loadRegs x a).keys = s.keys := rfl
@[simp] theorem State.loadRegs_waitActive (s : State) (x : Reg) (a : Nat) : (s.loadRegs x a).waitActive = s.waitActive := rfl
@[simp] theorem State.loadRegs_waitReg (s : State) (x : Reg) (a : Nat) : (s.loadRegs x a).waitReg = s.waitReg := rfl
@[simp] theorem State.loadRegs_waitPrev (s : State) (x : Reg) (a : Nat) : (s.loadRegs x a).waitPrev = s.waitPrev := rfl
@[simp] theorem State.loadRegs_shiftSrc (s : State) (x : Reg) (a : Nat) : (s.loadRegs x a).shiftSrc = s.shiftSrc := rfl
@[simp] theorem State.loadRegs_result (s : State) (x : Reg) (a : Nat) : (s.loadRegs x a).result = s.result := rfl
@[simp] theorem State.loadRegs_rndIn (s : State) (x : Reg) (a : Nat) : (s.loadRegs x a).rndIn = s.rndIn := rfl
@[simp] theorem State.loadRegs_draws (s : State) (x : Reg) (a : Nat) : (s.loadRegs x a).draws = s.draws := rfl

/-! ### `takeRnd` -/

@[simp] theorem State.takeRnd_mem (s : State) : (s.takeRnd).mem = s.mem := rfl
@[simp] theorem State.takeRnd_v (s : State) : (s.takeRnd).v = s.v := rfl
@[simp] theorem State.takeRnd_i (s : State) : (s.takeRnd).i = s.i := rfl
@[simp] theorem State.takeRnd_pc (s : State) : (s.takeRnd).pc = s.pc := rfl
@[simp] theorem State.takeRnd_dt (s : State) : (s.takeRnd).dt = s.dt := rfl
@[simp] theorem State.takeRnd_st (s : State) : (s.takeRnd).st = s.st := rfl
@[simp] theorem State.takeRnd_stack (s : State) : (s.takeRnd).stack = s.stack := rfl
@[simp] theorem State.takeRnd_sp (s : State) : (s.takeRnd).sp = s.sp := rfl
@[simp] theorem State.takeRnd_fb (s : State) : (s.takeRnd).fb = s.fb := rfl
@[simp] theorem State.takeRnd_keys (s : State) : (s.takeRnd).keys = s.keys := rfl
@[simp] theorem State.takeRnd_waitActive (s : State) : (s.takeRnd).waitActive = s.waitActive := rfl
@[simp] theorem State.takeRnd_waitReg (s : State) : (s.takeRnd).waitReg = s.waitReg := rfl
@[simp] theorem State.takeRnd_waitPrev (s : State) : (s.takeRnd).waitPrev = s.waitPrev := rfl
@[simp] theorem State.takeRnd_shiftSrc (s : State) : (s.takeRnd).shiftSrc = s.shiftSrc := rfl
@[simp] theorem State.takeRnd_result (s : State) : (s.takeRnd).result = s.result := rfl
@[simp] theorem State.takeRnd_rndIn (s : State) : (s.takeRnd).rndIn = none := rfl
@[simp] theorem State.takeRnd_draws (s : State) : (s.takeRnd).draws = s.draws + 1 := rfl

/-! ### `writeWait` -/

@[simp] theorem State.writeWait_mem (s : State) (w : Bool) (r : Reg) (p : Word) : (s.writeWait w r p).mem = s.mem := rfl
@[simp] theorem State.writeWait_v (s : State) (w : Bool) (r : Reg) (p : Word) : (s.writeWait w r p).v = s.v := rfl
@[simp] theorem State.writeWait_i (s : State) (w : Bool) (r : Reg) (p : Word) : (s.writeWait w r p).i = s.i := rfl
@[simp] theorem State.writeWait_pc (s : State) (w : Bool) (r : Reg) (p : Word) : (s.writeWait w r p).pc = s.pc := rfl
@[simp] theorem State.writeWait_dt (s : State) (w : Bool) (r : Reg) (p : Word) : (s.writeWait w r p).dt = s.dt := rfl
@[simp] theorem State.writeWait_st (s : State) (w : Bool) (r : Reg) (p : Word) : (s.writeWait w r p).st = s.st := rfl
@[simp] theorem State.writeWait_stack (s : State) (w : Bool) (r : Reg) (p : Word) : (s.writeWait w r p).stack = s.stack := rfl
@[simp] theorem State.writeWait_sp (s : State) (w : Bool) (r : Reg) (p : Word) : (s.writeWait w r p).sp = s.sp := rfl
@[simp] theorem State.writeWait_fb (s : State) (w : Bool) (r : Reg) (p : Word) : (s.writeWait w r p).fb = s.fb := rfl
@[simp] theorem State.writeWait_keys (s : State) (w : Bool) (r : Reg) (p : Word) : (s.writeWait w r p).keys = s.keys := rfl
@[simp] theorem State.writeWait_waitActive (s : State) (w : Bool) (r : Reg) (p : Word) : (s.writeWait w r p).waitActive = w := rfl
@[simp] theorem State.writeWait_waitReg (s : State) (w : Bool) (r : Reg) (p : Word) : (s.writeWait w r p).waitReg = r := rfl
@[simp] theorem State.writeWait_waitPrev (s : State) (w : Bool) (r : Reg) (p : Word) : (s.writeWait w r p).waitPrev = p := rfl
@[simp] theorem State.writeWait_shiftSrc (s : State) (w : Bool) (r : Reg) (p : Word) : (s.writeWait w r p).shiftSrc = s.shiftSrc := rfl
@[simp] theorem State.writeWait_result (s : State) (w : Bool) (r : Reg) (p : Word) : (s.writeWait w r p).result = s.result := rfl
@[simp] theorem State.writeWait_rndIn (s : State) (w : Bool) (r : Reg) (p : Word) : (s.writeWait w r p).rndIn = s.rndIn := rfl
@[simp] theorem State.writeWait_draws (s : State) (w : Bool) (r : Reg) (p : Word) : (s.writeWait w r p).draws = s.draws := rfl

/-! ### `writeFB` -/

@[simp] theorem State.writeFB_mem (s : State) (fb : FrameBuffer) : (s.writeFB fb).mem = s.mem := rfl
@[simp] theorem State.writeFB_v (s : State) (fb : FrameBuffer) : (s.writeFB fb).v = s.v := rfl
@[simp] theorem State.writeFB_i (s : State) (fb : FrameBuffer) : (s.writeFB fb).i = s.i := rfl
@[simp] theorem State.writeFB_pc (s : State) (fb : FrameBuffer) : (s.writeFB fb).pc = s.pc := rfl
@[simp] theorem State.writeFB_dt (s : State) (fb : FrameBuffer) : (s.writeFB fb).dt = s.dt := rfl
@[simp] theorem State.writeFB_st (s : State) (fb : FrameBuffer) : (s.writeFB fb).st = s.st := rfl
@[simp] theorem State.writeFB_stack (s : State) (fb : FrameBuffer) : (s.writeFB fb).stack = s.stack := rfl
@[simp] theorem State.writeFB_sp (s : State) (fb : FrameBuffer) : (s.writeFB fb).sp = s.sp := rfl
@[simp] theorem State.writeFB_fb (s : State) (fb : FrameBuffer) : (s.writeFB fb).fb = fb := rfl
@[simp] theorem State.writeFB_keys (s : State) (fb : FrameBuffer) : (s.writeFB fb).keys = s.keys := rfl
@[simp] theorem State.writeFB_waitActive (s : State) (fb : FrameBuffer) : (s.writeFB fb).waitActive = s.waitActive := rfl
@[simp] theorem State.writeFB_waitReg (s : State) (fb : FrameBuffer) : (s.writeFB fb).waitReg = s.waitReg := rfl
@[simp] theorem State.writeFB_waitPrev (s : State) (fb : FrameBuffer) : (s.writeFB fb).waitPrev = s.waitPrev := rfl
@[simp] theorem State.writeFB_shiftSrc (s : State) (fb : FrameBuffer) : (s.writeFB fb).shiftSrc = s.shiftSrc := rfl
@[simp] theorem State.writeFB_result (s : State) (fb : FrameBuffer) : (s.writeFB fb).result = s.result := rfl
@[simp] theorem State.writeFB_rndIn (s : State) (fb : FrameBuffer) : (s.writeFB fb).rndIn = s.rndIn := rfl
@[simp] theorem State.writeFB_draws (s : State) (fb : FrameBuffer) : (s.writeFB fb).draws = s.draws := rfl

/-! ### `writeVWithFlag` -/

@[simp] theorem State.writeVWithFlag_mem (s : State) (x : Reg) (b flag : Byte) : (s.writeVWithFlag x b flag).mem = s.mem := rfl
@[simp] theorem State.writeVWithFlag_v (s : State) (x : Reg) (b flag : Byte) : (s.writeVWithFlag x b flag).v = (s.v.set x b).set regF flag := rfl
@[simp] theorem State.writeVWithFlag_i (s : State) (x : Reg) (b flag : Byte) : (s.writeVWithFlag x b flag).i = s.i := rfl
@[simp] theorem State.writeVWithFlag_pc (s : State) (x : Reg) (b flag : Byte) : (s.writeVWithFlag x b flag).pc = s.pc := rfl
@[simp] theorem State.writeVWithFlag_dt (s : State) (x : Reg) (b flag : Byte) : (s.writeVWithFlag x b flag).dt = s.dt := rfl
@[simp] theorem State.writeVWithFlag_st (s : State) (x : Reg) (b flag : Byte) : (s.writeVWithFlag x b flag).st = s.st := rfl
@[simp] theorem State.writeVWithFlag_stack (s : State) (x : Reg) (b flag : Byte) : (s.writeVWithFlag x b flag).stack = s.stack := rfl
@[simp] theorem State.writeVWithFlag_sp (s : State) (x : Reg) (b flag : Byte) : (s.writeVWithFlag x b flag).sp = s.sp := rfl
@[simp] theorem State.writeVWithFlag_fb (s : State) (x : Reg) (b flag : Byte) : (s.writeVWithFlag x b flag).fb = s.fb := rfl
@[simp] theorem State.writeVWithFlag_keys (s : State) (x : Reg) (b flag : Byte) : (s.writeVWithFlag x b flag).keys = s.keys := rfl
@[simp] theorem State.writeVWithFlag_waitActive (s : State) (x : Reg) (b flag : Byte) : (s.writeVWithFlag x b flag).waitActive = s.waitActive := rfl
@[simp] theorem State.writeVWithFlag_waitReg (s : State) (x : Reg) (b flag : Byte) : (s.writeVWithFlag x b flag).waitReg = s.waitReg := rfl
@[simp] theorem State.writeVWithFlag_waitPrev (s : State) (x : Reg) (b flag : Byte) : (s.writeVWithFlag x b flag).waitPrev = s.waitPrev := rfl
@[simp] theorem State.writeVWithFlag_shiftSrc (s : State) (x : Reg) (b flag : Byte) : (s.writeVWithFlag x b flag).shiftSrc = s.shiftSrc := rfl
@[simp] theorem State.writeVWithFlag_result (s : State) (x : Reg) (b flag : Byte) : (s.writeVWithFlag x b flag).result = s.result := rfl
@[simp] theorem State.writeVWithFlag_rndIn (s : State) (x : Reg) (b flag : Byte) : (s.writeVWithFlag x b flag).rndIn = s.rndIn := rfl
@[simp] theorem State.writeVWithFlag_draws (s : State) (x : Reg) (b flag : Byte) : (s.writeVWithFlag x b flag).draws = s.draws := rfl

/-! ### Register reads -/

@[simp] theorem State.readV_writeV (s : State) (x y : Reg) (b : Byte) :
    (s.writeV x b).readV y = if y = x then b else s.readV y := by
  simp only [State.readV, State.writeV, Fin.getElem_fin, Vector.getElem_set]
  by_cases h : y = x
  · simp [h]
  · rw [if_neg h, if_neg (fun e => h (Fin.ext e.symm))]

@[simp] theorem State.readV_loadRegs (s : State) (x y : Reg) (a : Nat) :
    (s.loadRegs x a).readV y = if y ≤ x then s.readMem (a + y.val) else s.readV y := by
  simp [State.readV, State.loadRegs, State.loadedV]

theorem State.readV_writeVWithFlag (s : State) (x y : Reg) (b flag : Byte) :
    (s.writeVWithFlag x b flag).readV y = if y = regF then flag else if y = x then b else s.readV y := by
  simp [State.writeVWithFlag]

@[simp] theorem State.readV_writeI (s : State) (a : Nat) (y : Reg) : (s.writeI a).readV y = s.readV y := rfl
@[simp] theorem State.readV_writeDT (s : State) (b : Byte) (y : Reg) : (s.writeDT b).readV y = s.readV y := rfl
@[simp] theorem State.readV_writeST (s : State) (b : Byte) (y : Reg) : (s.writeST b).readV y = s.readV y := rfl
@[simp] theorem State.readV_store (s : State) (a : Nat) (bs : List Byte) (y : Reg) : (s.store a bs).readV y = s.readV y := rfl
@[simp] theorem State.readV_takeRnd (s : State) (y : Reg) : (s.takeRnd).readV y = s.readV y := rfl
@[simp] theorem State.readV_writeWait (s : State) (w : Bool) (r : Reg) (p : Word) (y : Reg) : (s.writeWait w r p).readV y = s.readV y := rfl
@[simp] theorem State.readV_writeFB (s : State) (fb : FrameBuffer) (y : Reg) : (s.writeFB fb).readV y = s.readV y := rfl

/-! ### Memory reads -/

@[simp] theorem State.readMem_writeV (s : State) (x : Reg) (b : Byte) (c : Nat) : (s.writeV x b).readMem c = s.readMem c := rfl
@[simp] theorem State.readMem_writeI (s : State) (a : Nat) (c : Nat) : (s.writeI a).readMem c = s.readMem c := rfl
@[simp] theorem State.readMem_writeDT (s : State) (b : Byte) (c : Nat) : (s.writeDT b).readMem c = s.readMem c := rfl
@[simp] theorem State.readMem_writeST (s : State) (b : Byte) (c : Nat) : (s.writeST b).readMem c = s.readMem c := rfl
@[simp] theorem State.readMem_store (s : State) (a : Nat) (bs : List Byte) (c : Nat) :
    (s.store a bs).readMem c = (s.mem.writeBytes a bs).readByte c := rfl
@[simp] theorem State.readMem_loadRegs (s : State) (x : Reg) (a : Nat) (c : Nat) : (s.loadRegs x a).readMem c = s.readMem c := rfl
@[simp] theorem State.readMem_takeRnd (s : State) (c : Nat) : (s.takeRnd).readMem c = s.readMem c := rfl
@[simp] theorem State.readMem_writeWait (s : State) (w : Bool) (r : Reg) (p : Word) (c : Nat) : (s.writeWait w r p).readMem c = s.readMem c := rfl
@[simp] theorem State.readMem_writeFB (s : State) (fb : FrameBuffer) (c : Nat) : (s.writeFB fb).readMem c = s.readMem c := rfl
@[simp] theorem State.readMem_writeVWithFlag (s : State) (x : Reg) (b flag : Byte) (c : Nat) : (s.writeVWithFlag x b flag).readMem c = s.readMem c := rfl

end Sys2Proof.Machine
end

