-- ==== Sys2Proof/Laws/Ops.lean ====
section
/-! SUPPORT. One lemma per shared operation: addresses, the call stack, the framebuffer, the commit of a step, the
operand forms and the flags. -/

namespace Sys2Proof.Machine

/-! ### Addresses (spec/20 R51) -/

@[simp] theorem addr12_toNat (a : Nat) : (addr12 a).toNat = a % 4096 := by
  simp only [addr12, BitVec.toNat_ofNat]
  omega

theorem addr12_lt (a : Nat) : (addr12 a).toNat < 4096 := by
  rw [addr12_toNat]
  exact Nat.mod_lt a (by decide)

@[simp] theorem State.pcNext_toNat (s : State) : s.pcNext.toNat = (s.pc.toNat + 2) % 4096 := addr12_toNat _

@[simp] theorem State.pcSkip_toNat (s : State) : s.pcSkip.toNat = (s.pc.toNat + 4) % 4096 := addr12_toNat _

/-! ### The call stack (spec/10 R29, R30) -/

/-- What a push that succeeds does. -/
theorem State.push_some {s t : State} {a : Word} (h : s.push a = some t) :
    ∃ hlt : s.sp.val < 16, t = { s with stack := s.stack.set s.sp.val a, sp := ⟨s.sp.val + 1, Nat.succ_lt_succ hlt⟩ } := by
  unfold State.push at h
  split at h
  · exact ⟨‹_›, (Option.some.inj h).symm⟩
  · cases h

/-- A push fails exactly on a full stack. -/
theorem State.push_none {s : State} {a : Word} : s.push a = none ↔ s.sp.val = 16 := by
  unfold State.push
  have := s.sp.isLt
  split <;> simp <;> omega

/-- What a pop that succeeds does: no entry is cleared. -/
theorem State.pop_some {s t : State} {a : Word} (h : s.pop = some (a, t)) :
    ∃ k : Fin 16, s.sp.val = k.val + 1 ∧ a = s.stack[k] ∧ t = { s with sp := ⟨k.val, Nat.lt_succ_of_lt k.isLt⟩ } := by
  unfold State.pop at h
  split at h
  next hpos =>
    have hlt := s.sp.isLt
    have e := Option.some.inj h
    exact ⟨⟨s.sp.val - 1, by omega⟩, by simp only; omega, (congrArg Prod.fst e).symm, (congrArg Prod.snd e).symm⟩
  · cases h

/-- A pop fails exactly on an empty stack. -/
theorem State.pop_none {s : State} : s.pop = none ↔ s.sp.val = 0 := by
  unfold State.pop
  split <;> simp <;> omega

/-! ### The framebuffer (spec/10 R31) -/

@[simp] theorem FrameBuffer.pixel_setPixel (fb : FrameBuffer) (x x' : Fin 64) (y y' : Fin 32) (b : Bool) :
    (fb.setPixel x y b).pixel x' y' = if x' = x ∧ y' = y then b else fb.pixel x' y' := by
  simp only [FrameBuffer.pixel, FrameBuffer.setPixel, Fin.getElem_fin, Vector.getElem_set]
  by_cases hx : x' = x
  · subst hx
    by_cases hy : y' = y
    · simp [hy]
    · have : y.val ≠ y'.val := fun e => hy (Fin.ext e.symm)
      simp [hy, this]
  · have : x.val ≠ x'.val := fun e => hx (Fin.ext e.symm)
    simp [hx, this]

@[simp] theorem FrameBuffer.pixel_blank (x : Fin 64) (y : Fin 32) : FrameBuffer.blank.pixel x y = false := by
  simp [FrameBuffer.pixel, FrameBuffer.blank]

/-- Framebuffers with the same pixels are equal. -/
theorem FrameBuffer.ext_pixel (fb fb' : FrameBuffer) (h : ∀ x y, fb.pixel x y = fb'.pixel x y) : fb = fb' := by
  apply Vector.ext
  intro x hx
  apply Vector.ext
  intro y hy
  exact h ⟨x, hx⟩ ⟨y, hy⟩

/-! ### The end of a step (spec/40 R101, R104, R105) -/

@[simp] theorem commit_eq_next (sig : Signals) (a : Word) (s t : State) :
    commit sig a s = .next t ↔ t = { s with pc := a, result := .ok sig } := by
  simp [commit, eq_comm]

@[simp] theorem block_eq_next (s t : State) : block s = .next t ↔ t = { s with result := .blocked } := by
  simp [block, eq_comm]

theorem advance_eq_commit (s : State) : advance s = commit Signals.quiet s.pcNext s := rfl

theorem skipIf_eq_commit (c : Bool) (s : State) :
    skipIf c s = commit Signals.quiet (if c then s.pcSkip else s.pcNext) s := rfl

@[simp] theorem raise_ne_next (f : Word → Word → Fault) (w : Word) (s t : State) : raise f w s ≠ .next t := nofun

/-! ### Operands and flags -/

@[simp] theorem lowNibble_val (b : Byte) : (lowNibble b).val = b.toNat % 16 := by
  simp [lowNibble]

@[simp] theorem State.length_regsUpTo (s : State) (x : Reg) : (s.regsUpTo x).length = x.val + 1 := by
  have := x.isLt
  simp [State.regsUpTo]

theorem State.getD_regsUpTo (s : State) (x k : Reg) (h : k ≤ x) : (s.regsUpTo x).getD k.val 0 = s.readV k := by
  have hk : k.val < x.val + 1 := Nat.lt_succ_of_le h
  simp [State.regsUpTo, State.readV, hk]

@[simp] theorem length_bcdDigits (b : Byte) : (bcdDigits b).length = 3 := rfl

/-- The least key of a set is in it, and no smaller key is. -/
theorem leastKey_eq_some {w : Word} {k : Reg} : leastKey w = some k ↔
    w.getLsbD k.val = true ∧ ∀ j : Reg, j < k → w.getLsbD j.val = false := by
  have key : ∀ w : Word, ∀ k : Reg, leastKey w = some k ↔ w.getLsbD k.val = true ∧ ∀ j : Reg, j < k → ¬ w.getLsbD j.val = true := by
    intro w k
    unfold leastKey
    rw [List.find?_eq_some_iff_getElem]
    constructor
    · rintro ⟨h, i, hi, e, hlt⟩
      refine ⟨h, fun j hj => ?_⟩
      have hik : i = k.val := by simpa using congrArg Fin.val e
      have := hlt j.val (by rw [hik]; exact hj)
      simpa using this
    · rintro ⟨h, hlt⟩
      exact ⟨h, k.val, by simp, by simp, fun j hj => by simpa using hlt ⟨j, by omega⟩ hj⟩
  simp [key]

theorem leastKey_eq_none {w : Word} : leastKey w = none ↔ ∀ k : Reg, w.getLsbD k.val = false := by
  simp [leastKey, List.find?_eq_none]

theorem State.newKeys_bit (s : State) (k : Reg) :
    s.newKeys.getLsbD k.val = (s.keys.getLsbD k.val && !s.waitPrev.getLsbD k.val) := by
  simp [State.newKeys]

end Sys2Proof.Machine
end

