-- ==== Sys2Proof/Laws/Display.lean ====
section
/-! SUPPORT. What a run of sprite bits leaves at every pixel, and when it finds a collision (spec/44 R191). -/

namespace Sys2Proof.Machine

/-- Columns `0..n-1` of row `r` invert exactly the pixels a set bit falls on: no pixel is visited twice. -/
theorem drawColumns_pixel (x0 y0 r : Nat) (b : Byte) (n : Nat) (hn : n ≤ 8) (c : Canvas) (px : Fin 64) (py : Fin 32) :
    (drawColumns x0 y0 r b n c).1.pixel px py =
      (c.1.pixel px py ^^
        decide (∃ k, k < n ∧ b.getLsbD (7 - k) = true ∧ px.val = (x0 + k) % 64 ∧ py.val = (y0 + r) % 32)) := by
  induction n with
  | zero => simp [drawColumns]
  | succ n ih =>
    have ih := ih (by omega)
    have old : ∀ k, px.val = (x0 + n) % 64 → k < n → px.val ≠ (x0 + k) % 64 := by intro k; omega
    rw [drawColumns]
    split
    next hb =>
      rw [flipPixel, FrameBuffer.pixel_setPixel]
      by_cases hp : px = Fin.ofNat 64 (x0 + n) ∧ py = Fin.ofNat 32 (y0 + r)
      · have h1 : px.val = (x0 + n) % 64 := by rw [hp.1]; rfl
        have h2 : py.val = (y0 + r) % 32 := by rw [hp.2]; rfl
        rw [if_pos hp, ← hp.1, ← hp.2, ih]
        have e1 : decide (∃ k, k < n ∧ b.getLsbD (7 - k) = true ∧ px.val = (x0 + k) % 64 ∧ py.val = (y0 + r) % 32) = false := by
          rw [decide_eq_false_iff_not]
          rintro ⟨k, hk, -, hx, -⟩
          exact old k h1 hk hx
        have e2 : decide (∃ k, k < n + 1 ∧ b.getLsbD (7 - k) = true ∧ px.val = (x0 + k) % 64 ∧ py.val = (y0 + r) % 32) = true := by
          rw [decide_eq_true_iff]
          exact ⟨n, by omega, hb, h1, h2⟩
        rw [e1, e2]
        simp
      · rw [if_neg hp, ih]
        congr 1
        rw [decide_eq_decide]
        constructor
        · rintro ⟨k, hk, h⟩
          exact ⟨k, by omega, h⟩
        · rintro ⟨k, hk, hbk, hx, hy⟩
          rcases Nat.lt_succ_iff_lt_or_eq.1 hk with hlt | rfl
          · exact ⟨k, hlt, hbk, hx, hy⟩
          · exact absurd ⟨Fin.ext hx, Fin.ext hy⟩ hp
    next hb =>
      rw [ih]
      congr 1
      rw [decide_eq_decide]
      constructor
      · rintro ⟨k, hk, h⟩
        exact ⟨k, by omega, h⟩
      · rintro ⟨k, hk, hbk, h⟩
        rcases Nat.lt_succ_iff_lt_or_eq.1 hk with hlt | rfl
        · exact ⟨k, hlt, hbk, h⟩
        · exact absurd hbk hb

/-- Columns `0..n-1` of row `r` find a collision exactly where a set bit falls on a lit pixel. -/
theorem drawColumns_collision (x0 y0 r : Nat) (b : Byte) (n : Nat) (hn : n ≤ 8) (c : Canvas) :
    (drawColumns x0 y0 r b n c).2 = true ↔ c.2 = true ∨
      ∃ k, k < n ∧ b.getLsbD (7 - k) = true ∧
        c.1.pixel (Fin.ofNat 64 (x0 + k)) (Fin.ofNat 32 (y0 + r)) = true := by
  induction n with
  | zero => simp [drawColumns]
  | succ n ih =>
    have ih := ih (by omega)
    rw [drawColumns]
    split
    next hb =>
      have fresh : (drawColumns x0 y0 r b n c).1.pixel (Fin.ofNat 64 (x0 + n)) (Fin.ofNat 32 (y0 + r)) =
          c.1.pixel (Fin.ofNat 64 (x0 + n)) (Fin.ofNat 32 (y0 + r)) := by
        rw [drawColumns_pixel x0 y0 r b n (by omega)]
        have : decide (∃ k, k < n ∧ b.getLsbD (7 - k) = true ∧ (Fin.ofNat 64 (x0 + n)).val = (x0 + k) % 64 ∧
            (Fin.ofNat 32 (y0 + r)).val = (y0 + r) % 32) = false := by
          rw [decide_eq_false_iff_not]
          rintro ⟨k, hk, -, hx, -⟩
          have hx : (x0 + n) % 64 = (x0 + k) % 64 := hx
          omega
        rw [this, Bool.xor_false]
      rw [flipPixel, Bool.or_eq_true, ih, fresh]
      constructor
      · rintro ((h | ⟨k, hk, h⟩) | h)
        · exact .inl h
        · exact .inr ⟨k, by omega, h⟩
        · exact .inr ⟨n, by omega, hb, h⟩
      · rintro (h | ⟨k, hk, hbk, h⟩)
        · exact .inl (.inl h)
        · rcases Nat.lt_succ_iff_lt_or_eq.1 hk with hlt | rfl
          · exact .inl (.inr ⟨k, hlt, hbk, h⟩)
          · exact .inr h
    next hb =>
      rw [ih]
      constructor
      · rintro (h | ⟨k, hk, h⟩)
        · exact .inl h
        · exact .inr ⟨k, by omega, h⟩
      · rintro (h | ⟨k, hk, hbk, h⟩)
        · exact .inl h
        · rcases Nat.lt_succ_iff_lt_or_eq.1 hk with hlt | rfl
          · exact .inr ⟨k, hlt, hbk, h⟩
          · exact absurd hbk hb

/-- A set bit of rows `0..n-1` of the sprite at `a` falls on the pixel. -/
def RowsHit (m : Memory) (a x0 y0 n : Nat) (px : Fin 64) (py : Fin 32) : Prop :=
  ∃ r, r < n ∧ ∃ k, k < 8 ∧ (m.readByte (a + r)).getLsbD (7 - k) = true ∧ px.val = (x0 + k) % 64 ∧ py.val = (y0 + r) % 32

/-- One row more: the hits of the last row, which is a row of pixels of its own, and those of the rows before. -/
theorem rowsHit_succ (m : Memory) (a x0 y0 n : Nat) (px : Fin 64) (py : Fin 32) :
    RowsHit m a x0 y0 (n + 1) px py ↔
      (∃ k, k < 8 ∧ (m.readByte (a + n)).getLsbD (7 - k) = true ∧ px.val = (x0 + k) % 64 ∧ py.val = (y0 + n) % 32) ∨
        RowsHit m a x0 y0 n px py := by
  constructor
  · rintro ⟨r, hr, h⟩
    rcases Nat.lt_succ_iff_lt_or_eq.1 hr with hlt | rfl
    · exact .inr ⟨r, hlt, h⟩
    · exact .inl h
  · rintro (h | ⟨r, hr, h⟩)
    · exact ⟨n, by omega, h⟩
    · exact ⟨r, by omega, h⟩

/-- Rows of a sprite invert exactly the pixels a set bit falls on (spec/44 R191, R192). -/
theorem drawRows_pixel (m : Memory) (a x0 y0 n : Nat) (hn : n ≤ 15) (c : Canvas) (px : Fin 64) (py : Fin 32) :
    (RowsHit m a x0 y0 n px py → (drawRows m a x0 y0 n c).1.pixel px py = !c.1.pixel px py) ∧
    (¬ RowsHit m a x0 y0 n px py → (drawRows m a x0 y0 n c).1.pixel px py = c.1.pixel px py) := by
  induction n with
  | zero => exact ⟨fun ⟨_, h, _⟩ => absurd h (Nat.not_lt_zero _), fun _ => rfl⟩
  | succ n ih =>
    have ih := ih (by omega)
    rw [drawRows, drawColumns_pixel _ _ _ _ 8 (by omega), rowsHit_succ]
    by_cases h1 : ∃ k, k < 8 ∧ (m.readByte (a + n)).getLsbD (7 - k) = true ∧ px.val = (x0 + k) % 64 ∧ py.val = (y0 + n) % 32
    · have h2 : ¬ RowsHit m a x0 y0 n px py := by
        rintro ⟨r, hr, k, -, -, -, hy⟩
        obtain ⟨-, -, -, -, hy'⟩ := h1
        omega
      rw [decide_eq_true h1, ih.2 h2, Bool.xor_true]
      exact ⟨fun _ => rfl, fun h => absurd (.inl h1) h⟩
    · rw [decide_eq_false h1, Bool.xor_false]
      exact ⟨fun h => ih.1 (h.resolve_left h1), fun h => ih.2 (fun h' => h (.inr h'))⟩

/-- Rows of a sprite find a collision exactly where a set bit falls on a pixel that was lit before (spec/44 R192). -/
theorem drawRows_collision (m : Memory) (a x0 y0 n : Nat) (hn : n ≤ 15) (c : Canvas) :
    (drawRows m a x0 y0 n c).2 = true ↔
      c.2 = true ∨ ∃ px py, RowsHit m a x0 y0 n px py ∧ c.1.pixel px py = true := by
  induction n with
  | zero =>
    constructor
    · exact .inl
    · rintro (h | ⟨_, _, ⟨_, h, _⟩, _⟩)
      · exact h
      · exact absurd h (Nat.not_lt_zero _)
  | succ n ih =>
    have fresh : ∀ k, (drawRows m a x0 y0 n c).1.pixel (Fin.ofNat 64 (x0 + k)) (Fin.ofNat 32 (y0 + n)) =
        c.1.pixel (Fin.ofNat 64 (x0 + k)) (Fin.ofNat 32 (y0 + n)) := by
      intro k
      apply (drawRows_pixel m a x0 y0 n (by omega) c _ _).2
      rintro ⟨r, hr, -, -, -, -, hy⟩
      have hy : (y0 + n) % 32 = (y0 + r) % 32 := hy
      omega
    rw [drawRows, drawColumns_collision _ _ _ _ 8 (by omega), ih (by omega)]
    simp only [fresh, rowsHit_succ]
    constructor
    · rintro ((h | ⟨px, py, h, hp⟩) | ⟨k, hk, hb, hp⟩)
      · exact .inl h
      · exact .inr ⟨px, py, .inr h, hp⟩
      · exact .inr ⟨_, _, .inl ⟨k, hk, hb, rfl, rfl⟩, hp⟩
    · rintro (h | ⟨px, py, ⟨k, hk, hb, hx, hy⟩ | h, hp⟩)
      · exact .inl (.inl h)
      · refine .inr ⟨k, hk, hb, ?_⟩
        rwa [show px = Fin.ofNat 64 (x0 + k) from Fin.ext hx, show py = Fin.ofNat 32 (y0 + n) from Fin.ext hy] at hp
      · exact .inl (.inr ⟨px, py, h, hp⟩)

end Sys2Proof.Machine
end

