-- ==== Sys2Proof/Laws/PerInstr.lean ====
section
/-! SUPPORT. The per-instruction family TableRow: the word of every instruction fits its row of spec/opcode_table.json, the
bits of the mask being those of the match. One lemma per constructor. -/

namespace Sys2Proof.Laws.TableRow

/-- The encoded word has the row's fixed bits (spec/30 R85, spec/opcode_table.json). -/
def Statement (i : Instr) : Prop := encode i &&& i.tableMask = i.tableMatch

theorem sys (nnn : Addr) : Statement (.sys nnn) :=
  (and_F000 _).trans (by simp only [encode, fieldO_wordONNN]; rfl)

theorem jp (nnn : Addr) : Statement (.jp nnn) :=
  (and_F000 _).trans (by simp only [encode, fieldO_wordONNN]; rfl)

theorem call (nnn : Addr) : Statement (.call nnn) :=
  (and_F000 _).trans (by simp only [encode, fieldO_wordONNN]; rfl)

theorem ldIdx (nnn : Addr) : Statement (.ldIdx nnn) :=
  (and_F000 _).trans (by simp only [encode, fieldO_wordONNN]; rfl)

theorem jpV0 (nnn : Addr) : Statement (.jpV0 nnn) :=
  (and_F000 _).trans (by simp only [encode, fieldO_wordONNN]; rfl)

theorem cls : Statement .cls := rfl

theorem ret : Statement .ret := rfl

theorem seI (x : Reg) (nn : Byte) : Statement (.seI x nn) :=
  (and_F000 _).trans (by simp only [encode, fieldO_wordOXNN]; rfl)

theorem sneI (x : Reg) (nn : Byte) : Statement (.sneI x nn) :=
  (and_F000 _).trans (by simp only [encode, fieldO_wordOXNN]; rfl)

theorem ldI8 (x : Reg) (nn : Byte) : Statement (.ldI8 x nn) :=
  (and_F000 _).trans (by simp only [encode, fieldO_wordOXNN]; rfl)

theorem addI8 (x : Reg) (nn : Byte) : Statement (.addI8 x nn) :=
  (and_F000 _).trans (by simp only [encode, fieldO_wordOXNN]; rfl)

theorem rnd (x : Reg) (nn : Byte) : Statement (.rnd x nn) :=
  (and_F000 _).trans (by simp only [encode, fieldO_wordOXNN]; rfl)

theorem seR (x y : Reg) : Statement (.seR x y) :=
  (and_F00F _).trans (by simp only [encode, fieldO_wordOXYN, fieldN_wordOXYN]; rfl)

theorem ldR (x y : Reg) : Statement (.ldR x y) :=
  (and_F00F _).trans (by simp only [encode, fieldO_wordOXYN, fieldN_wordOXYN]; rfl)

theorem orR (x y : Reg) : Statement (.orR x y) :=
  (and_F00F _).trans (by simp only [encode, fieldO_wordOXYN, fieldN_wordOXYN]; rfl)

theorem andR (x y : Reg) : Statement (.andR x y) :=
  (and_F00F _).trans (by simp only [encode, fieldO_wordOXYN, fieldN_wordOXYN]; rfl)

theorem xorR (x y : Reg) : Statement (.xorR x y) :=
  (and_F00F _).trans (by simp only [encode, fieldO_wordOXYN, fieldN_wordOXYN]; rfl)

theorem addR (x y : Reg) : Statement (.addR x y) :=
  (and_F00F _).trans (by simp only [encode, fieldO_wordOXYN, fieldN_wordOXYN]; rfl)

theorem sub (x y : Reg) : Statement (.sub x y) :=
  (and_F00F _).trans (by simp only [encode, fieldO_wordOXYN, fieldN_wordOXYN]; rfl)

theorem shr (x y : Reg) : Statement (.shr x y) :=
  (and_F00F _).trans (by simp only [encode, fieldO_wordOXYN, fieldN_wordOXYN]; rfl)

theorem subn (x y : Reg) : Statement (.subn x y) :=
  (and_F00F _).trans (by simp only [encode, fieldO_wordOXYN, fieldN_wordOXYN]; rfl)

theorem shl (x y : Reg) : Statement (.shl x y) :=
  (and_F00F _).trans (by simp only [encode, fieldO_wordOXYN, fieldN_wordOXYN]; rfl)

theorem sneR (x y : Reg) : Statement (.sneR x y) :=
  (and_F00F _).trans (by simp only [encode, fieldO_wordOXYN, fieldN_wordOXYN]; rfl)

theorem drw (x y : Reg) (n : Nibble) : Statement (.drw x y n) :=
  (and_F000 _).trans (by simp only [encode, fieldO_wordOXYN]; rfl)

theorem skp (x : Reg) : Statement (.skp x) :=
  (and_F0FF _).trans (by simp only [encode, fieldO_wordOXNN, fieldNN_wordOXNN]; rfl)

theorem sknp (x : Reg) : Statement (.sknp x) :=
  (and_F0FF _).trans (by simp only [encode, fieldO_wordOXNN, fieldNN_wordOXNN]; rfl)

theorem ldVxDt (x : Reg) : Statement (.ldVxDt x) :=
  (and_F0FF _).trans (by simp only [encode, fieldO_wordOXNN, fieldNN_wordOXNN]; rfl)

theorem ldVxK (x : Reg) : Statement (.ldVxK x) :=
  (and_F0FF _).trans (by simp only [encode, fieldO_wordOXNN, fieldNN_wordOXNN]; rfl)

theorem ldDtVx (x : Reg) : Statement (.ldDtVx x) :=
  (and_F0FF _).trans (by simp only [encode, fieldO_wordOXNN, fieldNN_wordOXNN]; rfl)

theorem ldStVx (x : Reg) : Statement (.ldStVx x) :=
  (and_F0FF _).trans (by simp only [encode, fieldO_wordOXNN, fieldNN_wordOXNN]; rfl)

theorem addIdx (x : Reg) : Statement (.addIdx x) :=
  (and_F0FF _).trans (by simp only [encode, fieldO_wordOXNN, fieldNN_wordOXNN]; rfl)

theorem ldF (x : Reg) : Statement (.ldF x) :=
  (and_F0FF _).trans (by simp only [encode, fieldO_wordOXNN, fieldNN_wordOXNN]; rfl)

theorem ldB (x : Reg) : Statement (.ldB x) :=
  (and_F0FF _).trans (by simp only [encode, fieldO_wordOXNN, fieldNN_wordOXNN]; rfl)

theorem stRegs (x : Reg) : Statement (.stRegs x) :=
  (and_F0FF _).trans (by simp only [encode, fieldO_wordOXNN, fieldNN_wordOXNN]; rfl)

theorem ldRegs (x : Reg) : Statement (.ldRegs x) :=
  (and_F0FF _).trans (by simp only [encode, fieldO_wordOXNN, fieldNN_wordOXNN]; rfl)

end Sys2Proof.Laws.TableRow
end

