-- ==== Sys2Proof/Laws/Step.lean ====
section
/-! SUPPORT. Everything a step can do, said once: the poll of a pending key wait, or the execution of the decoded word;
and what a poll, a call and a return can answer. The inductions over a run are packaged here. -/

namespace Sys2Proof.Machine

/-- A step with a wait pending is a poll. -/
theorem step_waiting {s : State} (h : s.waitActive = true) : step s = keyWaitPoll s := by
  simp [step, h]

/-- A step with no wait pending fetches. -/
theorem step_running {s : State} (h : s.waitActive = false) : step s = fetchAndExecute s := by
  simp [step, h]

/-- The cases of a step that goes on. -/
theorem step_cases {s t : State} (h : step s = .next t) :
    (s.waitActive = true ∧ keyWaitPoll s = .next t) ∨
    (s.waitActive = false ∧ ∃ i, decode (fetch16 s.mem s.pc) = .form i ∧ exec i s = .next t) := by
  cases hw : s.waitActive with
  | true => exact .inl ⟨rfl, step_waiting hw ▸ h⟩
  | false =>
    rw [step_running hw, fetchAndExecute] at h
    split at h
    next i hd => exact .inr ⟨rfl, i, hd, h⟩
    next => exact absurd h (raise_ne_next _ _ _ _)

/-- The cases of a poll: it always goes on. -/
theorem keyWaitPoll_cases (s : State) :
    (leastKey s.newKeys = none ∧
      keyWaitPoll s = .next { s with waitPrev := s.keys, result := .blocked }) ∨
    (∃ k, leastKey s.newKeys = some k ∧
      keyWaitPoll s = .next { s with v := s.v.set s.waitReg (BitVec.ofNat 8 k.val), waitActive := false, pc := s.pcNext, result := .ok Signals.quiet }) := by
  unfold keyWaitPoll
  cases leastKey s.newKeys with
  | none => exact .inl ⟨rfl, rfl⟩
  | some k => exact .inr ⟨k, rfl, rfl⟩

/-- The cases of CALL (spec/41 R123). -/
theorem execCall_cases (nnn : Addr) (s : State) :
    (∃ hlt : s.sp.val < 16, execCall nnn s = .next { s with stack := s.stack.set s.sp.val s.pcNext, sp := ⟨s.sp.val + 1, Nat.succ_lt_succ hlt⟩, pc := addr12 nnn.toNat, result := .ok Signals.quiet }) ∨
    (s.sp.val = 16 ∧ execCall nnn s = .fault (.stackOverflow s.pc (encode (.call nnn)))) := by
  unfold execCall
  cases h : s.push s.pcNext with
  | none => exact .inr ⟨State.push_none.1 h, rfl⟩
  | some t =>
    obtain ⟨hlt, rfl⟩ := State.push_some h
    exact .inl ⟨hlt, rfl⟩

/-- The cases of RET (spec/41 R121). -/
theorem execRet_cases (s : State) :
    (∃ k : Fin 16, s.sp.val = k.val + 1 ∧ execRet s = .next { s with sp := ⟨k.val, Nat.lt_succ_of_lt k.isLt⟩, pc := addr12 s.stack[k].toNat, result := .ok Signals.quiet }) ∨
    (s.sp.val = 0 ∧ execRet s = .fault (.stackUnderflow s.pc (encode .ret))) := by
  unfold execRet
  cases h : s.pop with
  | none => exact .inr ⟨State.pop_none.1 h, rfl⟩
  | some p =>
    obtain ⟨k, hk, ha, ht⟩ := State.pop_some (a := p.1) (t := p.2) h
    refine .inl ⟨k, hk, ?_⟩
    simp only [ha, ht]
    rfl

/-! ### Runs -/

@[simp] theorem afterOps_zero (ops : Nat → HostOp) (s : State) : afterOps ops s 0 = s := rfl

@[simp] theorem afterOps_succ (ops : Nat → HostOp) (s : State) (k : Nat) :
    afterOps ops s (k + 1) = (perform (ops k) (afterOps ops s k)).1 := rfl

/-- What every operation of a schedule keeps holds at every point of the run. -/
theorem afterOps_keeps {P : State → Prop} {ops : Nat → HostOp} (hk : ∀ n s, P s → P (perform (ops n) s).1) {s : State}
    (h : P s) (k : Nat) : P (afterOps ops s k) := by
  induction k with
  | zero => exact h
  | succ k ih => exact hk k _ ih

/-- What both created states have and every operation keeps, every reachable state has. -/
theorem Reachable.keeps {P : State → Prop} (hc : ∀ src, P { State.reset with shiftSrc := src })
    (hk : ∀ op s, P s → P (perform op s).1) {s : State} (h : Reachable s) : P s := by
  induction h with
  | created src => exact hc src
  | operation op s _ ih => exact hk op s ih

end Sys2Proof.Machine
end

