-- ==== Sys2Proof/Tests/Slice0.lean ====
section
/-! SUPPORT. The model's own tests. Expected values come from the vectors of spec/95_test_vectors.md (each test names its
own) and from the patterns of spec/30 R85; the witnesses meet the hypotheses of the statements of
Certificates/Slice0/Obligations.lean. -/

namespace Sys2Proof.Tests

open Sys2Proof Sys2Proof.Machine

/-! ### WellFormed: one ill-formed term for each check -/

theorem test_wf_sys_refuses_00E0 : (Instr.sys 0x0E0).wf = false := by decide
theorem test_wf_sys_refuses_00EE : (Instr.sys 0x0EE).wf = false := by decide
theorem test_wf_sys_admits_00E1 : (Instr.sys 0x0E1).wf = true := by decide

/-! ### Decoding: words written out bit by bit from spec/30 R85, one per row (and spec/95 L2.1) -/

theorem test_decode_control :
    decode 0b0000_000100100011#16 = .form (.sys 0x123) ∧ decode 0b0000_000011101110#16 = .form .ret ∧
    decode 0b0001_001000110100#16 = .form (.jp 0x234) ∧ decode 0b0010_101010111100#16 = .form (.call 0xABC) ∧
    decode 0b0011_1111_00000000#16 = .form (.seI 0xF 0) ∧ decode 0b0100_0011_00010000#16 = .form (.sneI 3 0x10) ∧
    decode 0b0101_0001_0010_0000#16 = .form (.seR 1 2) ∧ decode 0b1001_1010_1011_0000#16 = .form (.sneR 0xA 0xB) ∧
    decode 0b1011_000100100011#16 = .form (.jpV0 0x123) := by decide

theorem test_decode_alu :
    decode 0b0110_0000_00000101#16 = .form (.ldI8 0 5) ∧ decode 0b0111_0000_00000011#16 = .form (.addI8 0 3) ∧
    decode 0b1000_0001_0010_0000#16 = .form (.ldR 1 2) ∧ decode 0b1000_0001_0010_0001#16 = .form (.orR 1 2) ∧
    decode 0b1000_0001_0010_0010#16 = .form (.andR 1 2) ∧ decode 0b1000_0001_0010_0011#16 = .form (.xorR 1 2) ∧
    decode 0b1000_0001_0010_0100#16 = .form (.addR 1 2) ∧ decode 0b1000_0001_0010_0101#16 = .form (.sub 1 2) ∧
    decode 0b1000_0001_0010_0110#16 = .form (.shr 1 2) ∧ decode 0b1000_1010_1011_0111#16 = .form (.subn 0xA 0xB) ∧
    decode 0b1000_0001_0010_1110#16 = .form (.shl 1 2) ∧ decode 0b1100_0011_00001111#16 = .form (.rnd 3 0x0F) := by decide

theorem test_decode_index_memory :
    decode 0b1010_000001010000#16 = .form (.ldIdx 0x050) ∧ decode 0b1111_0100_00011110#16 = .form (.addIdx 4) ∧
    decode 0b1111_0101_00101001#16 = .form (.ldF 5) ∧ decode 0b1111_1010_00110011#16 = .form (.ldB 0xA) ∧
    decode 0b1111_0010_01010101#16 = .form (.stRegs 2) ∧ decode 0b1111_1111_01100101#16 = .form (.ldRegs 0xF) := by decide

theorem test_decode_display_keypad_timers :
    decode 0b0000_000011100000#16 = .form .cls ∧ decode 0b1101_0001_0010_0101#16 = .form (.drw 1 2 5) ∧
    decode 0b1110_0010_10011110#16 = .form (.skp 2) ∧ decode 0b1110_0101_10100001#16 = .form (.sknp 5) ∧
    decode 0b1111_0101_00000111#16 = .form (.ldVxDt 5) ∧ decode 0b1111_0011_00001010#16 = .form (.ldVxK 3) ∧
    decode 0b1111_0001_00010101#16 = .form (.ldDtVx 1) ∧ decode 0b1111_0001_00011000#16 = .form (.ldStVx 1) := by decide

/-- spec/95 L2.1, the illegal words. -/
theorem test_decode_illegal :
    decode 0x5121 = .unknown ∧ decode 0x8008 = .unknown ∧ decode 0x800F = .unknown ∧ decode 0x9AB1 = .unknown ∧
    decode 0xE09F = .unknown ∧ decode 0xF000 = .unknown ∧ decode 0xF0FF = .unknown ∧ decode 0xFFFF = .unknown := by decide

theorem test_decodeTableWord : decodeTableWord 16 0xD125 = some (.drw 1 2 5) ∧ decodeTableWord 16 0xFFFF = none := by
  decide

/-! ### Helpers: a small state and one step -/

/-- The state an outcome goes on with. -/
def after : Outcome → Option State
  | .next s => some s
  | .fault _ => none
  | .refused _ => none

/-- The fault an outcome ends with. -/
def faultOf : Outcome → Option Fault
  | .next _ => none
  | .fault f => some f
  | .refused _ => none

/-- Registers set. -/
def withV (s : State) : List (Reg × Byte) → State
  | [] => s
  | p :: ps => withV (s.writeV p.1 p.2) ps

/-- One step of the word `w` from `s`, seen through `f`. -/
def stepOf {α : Type} (s : State) (w : Nat) (f : State → α) : Option α := (after (step (s.withFetchWord 16 w))).map f

/-! ### Control flow (spec/95 L2.2) -/

theorem test_sys_cf1 : stepOf State.reset 0x0123 (fun s => s.pc) = some 0x202 := by decide
theorem test_jp_cf2 : stepOf State.reset 0x1FFF (fun s => s.pc) = some 0xFFF := by decide
theorem test_call_cf4 : stepOf { State.reset with pc := 0xFFE } 0x2300 (fun s => (s.stack[0], s.sp, s.pc)) =
    some (0, 1, 0x300) := by decide
theorem test_call_cf5 : faultOf (step ({ State.reset with pc := 0x300, sp := 16 }.withFetchWord 16 0x2400)) =
    some (.stackOverflow 0x300 0x2400) := by decide
theorem test_ret_cf6 : stepOf { State.reset with pc := 0x212, sp := 1, stack := State.reset.stack.set 0 0x206 } 0x00EE
    (fun s => (s.pc, s.sp)) = some (0x206, 0) := by decide
theorem test_ret_cf7 : faultOf (step ({ State.reset with pc := 0x212 }.withFetchWord 16 0x00EE)) =
    some (.stackUnderflow 0x212 0x00EE) := by decide
theorem test_se_cf10 : stepOf { State.reset with pc := 0xFFE } 0x3000 (fun s => s.pc) = some 0x002 := by decide
theorem test_se_cf9 : stepOf (withV State.reset [(0, 6)]) 0x3005 (fun s => s.pc) = some 0x202 := by decide
theorem test_sne_cf12 : stepOf (withV State.reset [(3, 0x10)]) 0x4310 (fun s => s.pc) = some 0x202 := by decide
theorem test_sne_cf13 : stepOf (withV State.reset [(3, 0x11)]) 0x4310 (fun s => s.pc) = some 0x204 := by decide
theorem test_ser_cf14 : stepOf (withV State.reset [(1, 7)]) 0x5110 (fun s => s.pc) = some 0x204 := by decide
theorem test_sner_cf15 : stepOf (withV State.reset [(1, 7)]) 0x9110 (fun s => s.pc) = some 0x202 := by decide
theorem test_sner_cf16 : stepOf (withV State.reset [(1, 7), (2, 8)]) 0x9120 (fun s => s.pc) = some 0x204 := by decide
theorem test_jpv0_cf18 : stepOf (withV State.reset [(0, 0xFF)]) 0xBFFF (fun s => s.pc) = some 0x0FE := by decide

/-! ### ALU (spec/95 L2.3) -/

theorem test_ldi_a27 : stepOf State.reset 0x6FAB (fun s => (s.readV 15, s.pc)) = some (0xAB, 0x202) := by decide
theorem test_addi_a20 : stepOf (withV State.reset [(0, 0xFF), (15, 0x55)]) 0x7001 (fun s => (s.readV 0, s.readV 15)) =
    some (0, 0x55) := by decide
theorem test_ldr_a26 : stepOf (withV State.reset [(1, 0x3C)]) 0x8010 (fun s => s.readV 0) = some 0x3C := by decide
theorem test_or_a22 : stepOf (withV State.reset [(0, 0xF0), (1, 0x0F), (15, 0x55)]) 0x8011
    (fun s => (s.readV 0, s.readV 15)) = some (0xFF, 0x55) := by decide
theorem test_and_a23 : stepOf (withV State.reset [(0, 0xF0), (1, 0x3C), (15, 0x55)]) 0x8012
    (fun s => (s.readV 0, s.readV 15)) = some (0x30, 0x55) := by decide
theorem test_xor_a24 : stepOf (withV State.reset [(0, 0xF0), (1, 0x3C), (15, 0x55)]) 0x8013
    (fun s => (s.readV 0, s.readV 15)) = some (0xCC, 0x55) := by decide
theorem test_add_a3 : stepOf (withV State.reset [(15, 0xFF), (1, 1)]) 0x8F14 (fun s => s.readV 15) = some 1 := by decide
theorem test_add_a4 : stepOf (withV State.reset [(0, 0x10), (15, 1)]) 0x80F4 (fun s => (s.readV 0, s.readV 15)) =
    some (0x11, 0) := by decide
theorem test_sub_a7 : stepOf (withV State.reset [(1, 1)]) 0x8015 (fun s => (s.readV 0, s.readV 15)) =
    some (0xFF, 0) := by decide
theorem test_sub_a6 : stepOf (withV State.reset [(0, 5), (1, 5)]) 0x8015 (fun s => (s.readV 0, s.readV 15)) =
    some (0, 1) := by decide
theorem test_subn_a10 : stepOf (withV State.reset [(0, 5), (1, 1)]) 0x8017 (fun s => (s.readV 0, s.readV 15)) =
    some (0xFC, 0) := by decide
theorem test_shr_a15 : stepOf { withV State.reset [(0, 0xFF), (1, 4)] with shiftSrc := .vy } 0x8016
    (fun s => (s.readV 0, s.readV 15, s.readV 1)) = some (2, 0, 4) := by decide
theorem test_shr_a19 : stepOf (withV State.reset [(15, 3)]) 0x8FF6 (fun s => s.readV 15) = some 1 := by decide
theorem test_shl_a16 : stepOf (withV State.reset [(0, 0x80)]) 0x800E (fun s => (s.readV 0, s.readV 15)) =
    some (0, 1) := by decide
theorem test_shl_a18 : stepOf { withV State.reset [(1, 0x81)] with shiftSrc := .vy } 0x801E
    (fun s => (s.readV 0, s.readV 15)) = some (2, 1) := by decide
theorem test_rnd_a30 : stepOf { State.reset with rndIn := some 0xB7 } 0xC30F (fun s => s.readV 3) = some 7 := by decide

/-! ### Index and memory (spec/95 L2.4) -/

theorem test_ldidx_m1 : stepOf State.reset 0xA123 (fun s => s.i) = some 0x123 := by decide
theorem test_addidx_m2 : stepOf { withV State.reset [(0, 1), (15, 0x55)] with i := 0xFFF } 0xF01E
    (fun s => (s.i, s.readV 15)) = some (0, 0x55) := by decide
theorem test_ldf_m6 : stepOf (withV State.reset [(0, 0x1A)]) 0xF029 (fun s => s.i) = some 0x082 := by decide
theorem test_ldb_m8 : stepOf { withV State.reset [(0, 0xFF)] with i := 0x300 } 0xF033
    (fun s => (s.readMem 0x300, s.readMem 0x301, s.readMem 0x302)) = some (2, 5, 5) := by decide
theorem test_ldb_m11 : stepOf { withV State.reset [(0, 9)] with i := 0xFFE } 0xF033
    (fun s => (s.readMem 0xFFE, s.readMem 0xFFF, s.readMem 0, s.i)) = some (0, 0, 9, 0xFFE) := by decide
theorem test_stregs_m13 : stepOf { withV State.reset [(0, 0x11), (1, 0x22)] with i := 0xFFF } 0xF155
    (fun s => (s.readMem 0xFFF, s.readMem 0, s.i)) = some (0x11, 0x22, 0xFFF) := by decide
theorem test_ldregs_m15 : stepOf ((withV State.reset [(3, 0x77)]).writeI 0x300 |>.store 0x300 [1, 2, 3]) 0xF265
    (fun s => (s.readV 0, s.readV 1, s.readV 2, s.readV 3)) = some (1, 2, 3, 0x77) := by decide +kernel

/-! ### Display (spec/95 L1.3, L2.5) -/

theorem test_drw_l13 : stepOf { State.reset with i := 0x050 } 0xD005
    (fun s => ((List.finRange 8).map (fun c => s.fb.pixel (Fin.ofNat 64 c.val) 1), s.readV 15)) =
    some ([true, false, false, true, false, false, false, false], 0) := by decide
theorem test_drw_d8 : stepOf ((withV State.reset [(15, 5)]).writeI 0x300 |>.store 0x300 [0x80]) 0xD0F1
    (fun s => (s.fb.pixel 0 5, s.readV 15, s.result)) =
    some (true, 0, .ok { screenDirty := true, soundEdge := .none }) := by decide
theorem test_drw_d6_wraps : stepOf ((withV State.reset [(0, 60)]).writeI 0x300 |>.store 0x300 [0xFF]) 0xD011
    (fun s => (s.fb.pixel 63 0, s.fb.pixel 3 0, s.fb.pixel 4 0)) = some (true, true, false) := by decide
theorem test_cls_d9 : stepOf { State.reset with fb := State.reset.fb.setPixel 10 5 true } 0x00E0
    (fun s => (s.fb.pixel 10 5, s.pc)) = some (false, 0x202) := by decide

/-! ### Keypad and timers (spec/95 L2.6) -/

theorem test_skp_k3 : stepOf { withV State.reset [(2, 0x15)] with pc := 0x210, keys := 0x0020 } 0xE29E (fun s => s.pc) =
    some 0x214 := by decide
theorem test_sknp_k5 : stepOf { withV State.reset [(2, 5)] with pc := 0x210, keys := 0x0020 } 0xE2A1 (fun s => s.pc) =
    some 0x212 := by decide
theorem test_ldvxdt_k10 : stepOf { State.reset with dt := 0x2A } 0xF507 (fun s => s.readV 5) = some 0x2A := by decide
theorem test_ldvxk_k6 : stepOf State.reset 0xF30A (fun s => (s.waitActive, s.waitReg, s.waitPrev, s.pc, s.result)) =
    some (true, 3, 0, 0x200, .blocked) := by decide
theorem test_poll_k8 : (after (step { State.reset with waitActive := true, waitReg := 3, keys := 0x0204 })).map
    (fun s => (s.readV 3, s.waitActive, s.pc)) = some (2, false, 0x202) := by decide
theorem test_poll_k9 : (after (step { State.reset with waitActive := true, waitPrev := 0x0010, keys := 0x0010 })).map
    (fun s => (s.result, s.waitPrev)) = some (.blocked, 0x0010) := by decide
theorem test_lddtvx_k11 : stepOf (withV State.reset [(0, 7)]) 0xF015 (fun s => s.dt) = some 7 := by decide
theorem test_ldstvx_k12 : stepOf (withV State.reset [(1, 5)]) 0xF118 (fun s => (s.st, s.result)) =
    some (5, .ok { screenDirty := false, soundEdge := .on }) := by decide
theorem test_ldstvx_k14 : stepOf { State.reset with st := 5 } 0xF118 (fun s => (s.st, s.result)) =
    some (0, .ok { screenDirty := false, soundEdge := .off }) := by decide
theorem test_tick_t2 : (fun p : State × SoundEdge => (p.1.dt, p.1.st, p.2)) (tick { State.reset with dt := 5, st := 1 }) =
    (4, 0, .off) := by decide

/-! ### Faults, load, reset, skip (spec/95 L2.7) -/

theorem test_fault_x1 : faultOf (step (State.reset.withFetchWord 16 0xFFFF)) = some (.decodeFault 0x200 0xFFFF) := by
  decide
theorem test_fault_code : (Fault.stackUnderflow 0x212 0x00EE).report.kind.code = 3 := by decide
theorem test_skip_x8 : (fun s : State => (s.pc, s.waitActive)) (skip { State.reset with waitActive := true }) =
    (0x202, false) := by decide
theorem test_fetch_x7 : stepOf { State.reset with pc := 0xFFF } 0x602A (fun s => (s.readV 0, s.pc)) = some (0x2A, 1) := by
  decide
theorem test_load_l11 : (fun s : State => (s.readMem 0x200, s.readMem 0x203)) (load [0x60, 0x05, 0x70, 0x03] State.reset).1 =
    (0x60, 0x03) := by decide
theorem test_reset_x6 : (State.reset.readMem 0x050, State.reset.readMem 0x09D, State.reset.readMem 0x04F,
    State.reset.readMem 0x0A0) = (0xF0, 0xF0, 0, 0) := by decide

/-! ### Witnesses: the hypotheses of each statement are met together -/

/-- A jump to itself stands at PC. -/
def selfJump : State := State.reset.withFetchWord 16 0x1200

/-- A key wait is pending for V3 and key 7 has been pressed since. -/
def keyArrived : State := { State.reset with waitActive := true, waitReg := 3, keys := 0x0080 }

/-- A key wait is pending and key 7 has been held since before. -/
def keyHeld : State := { State.reset with waitActive := true, waitReg := 3, keys := 0x0080, waitPrev := 0x0080 }

/-- One pixel is lit and `I` points at a glyph. -/
def onePixel : State := { State.reset with i := 0x050, fb := State.reset.fb.setPixel 0 0 true }

theorem witness_inv : onePixel.Inv :=
  ⟨rfl, by decide, by decide, fun _ h => absurd h (Nat.not_lt_zero _)⟩

theorem witness_DecodeOfEncode : (Instr.sys 0xFFF).wf = true ∧ (Instr.drw 15 0 15).wf = true := by decide
theorem witness_EncodeOfDecode : decode 0x00E1 = .form (.sys 0x0E1) ∧ decode 0xFF65 = .form (.ldRegs 15) := by decide
theorem witness_StepRunsDecodedInstruction : selfJump.waitActive = false ∧
    decode (wordOfBytes (selfJump.readMem selfJump.pc.toNat) (selfJump.readMem (selfJump.pc.toNat + 1))) =
      .form (.jp 0x200) := by decide
/-- The operation step(rnd) at a word that decodes to RND V3, 0x0F. -/
theorem witness_StepRunsDecodedInstruction_rnd : (State.reset.withFetchWord 16 0xC30F).waitActive = false ∧
    decode (wordOfBytes (State.reset.withFetchWord 16 0xC30F |>.readMem 0x200)
      (State.reset.withFetchWord 16 0xC30F |>.readMem 0x201)) = .form (.rnd 3 0x0F) ∧
    ∃ t, step { State.reset.withFetchWord 16 0xC30F with rndIn := some 0xB7 } = .next t := ⟨rfl, by decide, _, rfl⟩
/-- spec/95 L2.3 A30, through the host's operation. -/
theorem test_step_rnd_a30 : ((perform (.step 0xB7) (State.reset.withFetchWord 16 0xC30F)).1.readV 3,
    (perform (.step 0xB7) (State.reset.withFetchWord 16 0xC30F)).1.rndIn) = (7, none) := by decide
theorem witness_StepFaultsOnIllegalWord : (State.reset.withFetchWord 16 0x5121).waitActive = false ∧
    decode (fetch16 (State.reset.withFetchWord 16 0x5121).mem (State.reset.withFetchWord 16 0x5121).pc) = .unknown := by
  decide
theorem witness_PendingWaitReadsNoMemory : keyArrived.waitActive = true ∧ ∃ t, step keyArrived = .next t :=
  ⟨rfl, _, rfl⟩
theorem witness_FaultFreezesState : perform (.step 0) (State.reset.withFetchWord 16 0x00EE) =
    (State.reset.withFetchWord 16 0x00EE, .faulted ⟨.stackUnderflow, 0x200, 0x00EE⟩) := by rfl
theorem witness_ExecutionFaultsExactly :
    exec (.call 0x400) { State.reset with sp := 16 } = .fault (.stackOverflow 0x200 0x2400) ∧
    exec .ret State.reset = .fault (.stackUnderflow 0x200 0x00EE) := ⟨rfl, rfl⟩
theorem witness_BlockedExactly : (∃ t, step (State.reset.withFetchWord 16 0xF30A) = .next t ∧ t.result = .blocked) ∧
    (∃ t, step keyHeld = .next t ∧ t.result = .blocked) ∧ (∃ t, step keyArrived = .next t ∧ t.result ≠ .blocked) :=
  ⟨⟨_, rfl, rfl⟩, ⟨_, rfl, by decide⟩, ⟨_, rfl, by decide⟩⟩
theorem witness_SelfJumpRests : selfJump.waitActive = false ∧ ReturnedOk selfJump ∧
    decode (fetch16 selfJump.mem selfJump.pc) = .form (.jp 0x200) ∧ selfJump.pc.toNat = (0x200 : Addr).toNat :=
  ⟨rfl, rfl, by decide, by decide⟩
theorem witness_EqualReadsEqualMemories : Memory.wf [(0x300, 1)] = true ∧
    ∀ a, a < 4096 → Memory.readByte [(0x300, 1)] a = Memory.readByte (Memory.writeByte [] 0x300 1) a :=
  ⟨by decide, fun _ _ => rfl⟩
theorem witness_DistinctWritesCommute : Memory.wf [(0, 1), (0xFFF, 2)] = true ∧ 0xFFF % 4096 ≠ 0x1000 % 4096 := by decide
theorem witness_StepKeepsInvariant : onePixel.Inv ∧ ∃ t, step onePixel = .next t := ⟨witness_inv, _, rfl⟩
theorem witness_EveryOperationKeepsInvariant : onePixel.Inv ∧
    (perform (.step 0xB7) onePixel).2 = .stepped (.ok Signals.quiet) := ⟨witness_inv, by decide⟩
theorem test_reachable_with_VY :
    Reachable (perform (.load [0x22, 0x00]) { State.reset with shiftSrc := .vy }).1 := .operation _ _ (.created .vy)
theorem witness_UnsignalledStepKeepsFramebuffer :
    ∃ t, step (onePixel.withFetchWord 16 0x00E0) = .next t ∧ t.fb.pixel 0 0 ≠ (onePixel.withFetchWord 16 0x00E0).fb.pixel 0 0 :=
  ⟨_, rfl, by decide⟩
theorem witness_SoundEdgeReportsChange :
    (∃ t sig, step ((withV State.reset [(1, 5)]).withFetchWord 16 0xF118) = .next t ∧ t.result = .ok sig ∧
      sig.soundEdge = .on) ∧
    (∃ t, step (State.reset.withFetchWord 16 0xF30A) = .next t ∧ t.result = .blocked) :=
  ⟨⟨_, _, rfl, rfl, by decide⟩, _, rfl, rfl⟩
theorem witness_KeypadChangesOnlyByHost : (perform (.keyWrite 15 true) State.reset).1.keys ≠ State.reset.keys ∧
    (perform .reset keyHeld).1.keys ≠ keyHeld.keys := by decide
theorem witness_StackChangesOnlyByCallAndRet :
    (∃ t, step (State.reset.withFetchWord 16 0x2300) = .next t ∧ t.sp ≠ State.reset.sp) ∧
    (∃ t, step ({ State.reset with sp := 16 }.withFetchWord 16 0x00EE) = .next t ∧ t.sp = 15) :=
  ⟨⟨_, rfl, by decide⟩, _, rfl, rfl⟩
theorem witness_CallPushesReturnAddress : ({ State.reset with sp := 15 } : State).sp.val < 16 ∧
    ({ State.reset with sp := 16 } : State).sp.val = 16 := by decide
theorem witness_RetPopsReturnAddress : ({ State.reset with sp := 1 } : State).sp.val = (0 : Fin 16).val + 1 ∧
    ({ State.reset with sp := 16 } : State).sp.val = (15 : Fin 16).val + 1 ∧ State.reset.sp.val = 0 := by decide
theorem witness_CallThenRetReturns : State.reset.sp.val < 16 ∧ ({ State.reset with sp := 15 } : State).sp.val < 16 := by
  decide
theorem witness_destination_is_not_VF : (0 : Reg) ≠ regF ∧ (14 : Reg) ≠ regF := by decide
theorem witness_ShiftsSetBitShiftedOut :
    (0x81 : Nat) = ((withV State.reset [(2, 0x81)]).readV
      (match (withV State.reset [(2, 0x81)]).shiftSrc with | .vx => 2 | .vy => 0)).toNat := by decide
theorem witness_RandomByteIsMasked : ({ State.reset with rndIn := some 0xB7 } : State).rndIn = some 0xB7 := rfl
theorem witness_DumpThenLoadRestores : ∃ t, exec (.stRegs 15) onePixel = .next t ∧
    ({ State.reset with i := t.i, mem := t.mem } : State).i = t.i ∧
    ({ State.reset with i := t.i, mem := t.mem } : State).mem = t.mem := ⟨_, rfl, rfl, rfl⟩
theorem witness_registers_up_to_X : (0 : Reg) ≤ 0 ∧ (15 : Reg) ≤ 15 := by decide

/-- The top left pixel is hit by the glyph of digit 0, and the pixel at its inside is not. -/
theorem witness_SpriteDrawInvertsHitPixels : SpriteHits onePixel 0 0 5 0 0 ∧ onePixel.fb.pixel 0 0 = true ∧
    ¬ SpriteHits onePixel 0 0 0 0 0 :=
  ⟨⟨0, 0, by decide, by decide, by decide, by decide, by decide⟩, by decide,
    fun ⟨_, _, h, _⟩ => absurd h (Nat.not_lt_zero _)⟩

/-- The two clauses on the flag of a second draw: a hit pixel that is unlit, and a sprite all of whose pixels are lit. -/
theorem witness_SecondDrawRestores : (0 : Reg) ≠ regF ∧
    (SpriteHits onePixel 0 0 5 1 0 ∧ onePixel.fb.pixel 1 0 = false) ∧
    (SpriteHits { onePixel with fb := Vector.replicate 64 (Vector.replicate 32 true) } 0 0 5 0 0 ∧
      ∀ px py, ({ onePixel with fb := Vector.replicate 64 (Vector.replicate 32 true) } : State).fb.pixel px py = true) :=
  ⟨by decide, ⟨⟨0, 1, by decide, by decide, by decide, by decide, by decide⟩, by decide⟩,
    ⟨0, 0, by decide, by decide, by decide, by decide, by decide⟩, fun _ _ => by simp [FrameBuffer.pixel]⟩
theorem witness_SecondDrawFlagAsWritten : (0 : Reg) ≠ regF ∧ SpriteHits onePixel 0 0 5 0 0 ∧
    ∃ t u, exec (.drw 0 0 5) onePixel = .next t ∧ exec (.drw 0 0 5) t = .next u :=
  ⟨by decide, ⟨0, 0, by decide, by decide, by decide, by decide, by decide⟩, _, _, rfl, rfl⟩
theorem witness_KeyWaitPolls : keyHeld.waitActive = true ∧ NoNewKey keyHeld ∧ keyArrived.waitActive = true ∧
    keyArrived.keys.getLsbD (7 : Reg).val = true ∧ keyArrived.waitPrev.getLsbD (7 : Reg).val = false ∧
    (∀ j : Reg, j < 7 → keyArrived.keys.getLsbD j.val = true → keyArrived.waitPrev.getLsbD j.val = true) :=
  ⟨rfl, by unfold NoNewKey; decide, rfl, by decide, by decide, by decide⟩
/-- A held key and steps without end, a newly pressed key and no step at all, and the three ends of a wait. -/
theorem witness_WaitNothingEndsHangs :
    (keyHeld.waitActive = true ∧ NoNewKey keyHeld ∧ ∀ n k, (fun _ : Nat => HostOp.step 0) n ≠ .keyWrite k true) ∧
    (keyArrived.waitActive = true ∧ ∀ n rnd, (fun _ : Nat => HostOp.tick) n ≠ .step rnd) ∧
    (perform .skip keyHeld).1.waitActive = false ∧ (perform .reset keyHeld).1.waitActive = false ∧
    (perform (.step 0) keyArrived).1.waitActive = false :=
  ⟨⟨rfl, by unfold NoNewKey; decide, nofun⟩, ⟨rfl, nofun⟩, by decide, by decide, by decide⟩
theorem witness_SoundTimerForm : (State.reset.st = 0 ∧ (withV State.reset [(1, 5)]).readV 1 ≠ 0) ∧
    (({ State.reset with st := 1 } : State).st ≠ 0 ∧ ({ State.reset with st := 1 } : State).readV 1 = 0) ∧
    (State.reset.st = 0 ∧ State.reset.readV 1 = 0) ∧
    (({ State.reset with st := 1 } : State).st ≠ 0 ∧ (withV { State.reset with st := 1 } [(1, 5)]).readV 1 ≠ 0) := by decide
theorem witness_LoadCopiesOrFails : (List.replicate 3584 (0 : Byte)).length ≤ 3584 ∧
    3584 < (List.replicate 3585 (0 : Byte)).length := by
  rw [List.length_replicate, List.length_replicate]; decide
theorem witness_ResetRestoresState : 0x04F % 4096 < 0x050 ∧ 0x09F < 0x0A0 % 4096 := by decide

end Sys2Proof.Tests
end

