-- ==== Sys2Proof/Proofs/StepScope.lean ====
section
/-! PROOFS. What one step runs, and what the host's operation step(rnd) does with its byte (spec/00 R3, R5, spec/40 R100,
R101, spec/42 R152). -/

namespace Sys2Proof.Machine

/-! ### The step -/

/-- With no wait pending, a fetched word that decodes is executed (spec/40 R100). -/
theorem step_of_decode_form {s : State} {i : Instr} (hw : s.waitActive = false)
    (hd : decode (fetch16 s.mem s.pc) = .form i) : step s = exec i s := by
  rw [step_running hw, fetchAndExecute, hd]

/-- The host's step(rnd) is the step with its byte as the argument, where that goes on (spec/00 R3). -/
theorem perform_step_of_next {s t : State} {rnd : Byte} (h : step { s with rndIn := some rnd } = .next t) :
    perform (.step rnd) s = ({ t with rndIn := none }, .stepped t.result) :=
  congrArg (afterStep s) h

/-! ### RND (spec/42 R152) -/

/-- RND writes the masked random byte and moves to the next word. -/
theorem execRnd_eq_next (x : Reg) (nn : Byte) (s : State) :
    execRnd x nn s =
      .next { s.takeRnd.writeV x (s.rnd &&& nn) with pc := s.pcNext, result := .ok Signals.quiet } := rfl

/-- The random byte is the argument where the host fixed one (spec/00 R5). -/
theorem State.rnd_of_rndIn {s : State} {r : Byte} (h : s.rndIn = some r) : s.rnd = r := by
  rw [State.rnd, h, Option.getD_some]

/-- RND at PC: the host's step(rnd) returns a quiet Ok, and VX is the host's byte masked. -/
theorem perform_step_rnd {s : State} {rnd : Byte} {x : Reg} {nn : Byte} (hw : s.waitActive = false)
    (hd : decode (fetch16 s.mem s.pc) = .form (.rnd x nn)) :
    ∃ t, perform (.step rnd) s = (t, .stepped (.ok Signals.quiet)) ∧ t.readV x = rnd &&& nn := by
  have hstep : step { s with rndIn := some rnd } = execRnd x nn { s with rndIn := some rnd } :=
    step_of_decode_form (s := { s with rndIn := some rnd }) hw hd
  rw [execRnd_eq_next, State.rnd_of_rndIn (r := rnd) rfl] at hstep
  exact ⟨_, perform_step_of_next hstep, (State.readV_writeV _ x x (rnd &&& nn)).trans (if_pos rfl)⟩

end Sys2Proof.Machine

open Sys2Proof Sys2Proof.Machine

/-- Settles O5: the step is read off the decoded word, and the host's operation off the step. -/
theorem stepRunsDecodedInstruction : Obligations.StepRunsDecodedInstruction :=
  ⟨fun _ _ hw hd => step_of_decode_form hw hd,
    fun _ _ _ h => perform_step_of_next h,
    fun _ _ _ _ hw hd => perform_step_rnd hw hd⟩

end

