-- ==== Sys2Proof/Proofs/StateKept.lean ====
section
/-! PROOFS. What a step and the host's operations keep of the state (spec/10): the invariant (R23, R24), the report of a
change of sound_active (R27), the call stack (R28), the keypad (R32) and the shift source (R34); and the state after reset
(R37). A step is inverted once (`step_scope`), and each statement about steps is read off its cases. -/

namespace Sys2Proof.Machine

/-! ### The sound edge (spec/10 R27) -/

theorem edgeOf_eq_none {a b : Bool} : edgeOf a b = .none ↔ b = a := by cases a <;> cases b <;> decide

/-- The edge between two states' sound_active is read off their `ST` alone. -/
theorem edgeOf_soundActive (s t : State) : edgeOf s.soundActive t.soundActive = soundEdge s.st t.st := by
  unfold soundEdge State.soundActive
  by_cases hs : s.st = 0#8 <;> by_cases ht : t.st = 0#8 <;> simp [edgeOf, hs, ht]

theorem edgeOf_soundActive_of_st_eq {s t : State} (h : t.st = s.st) : edgeOf s.soundActive t.soundActive = .none :=
  edgeOf_eq_none.2 (by rw [State.soundActive, State.soundActive, h])

/-- The only count down that ends the sound is that from 1 (spec/60 R241, R243). -/
theorem soundEdge_countDown (b : Byte) : soundEdge b (countDown b) = if b = 1 then .off else .none := by
  unfold countDown
  by_cases h0 : b = 0#8
  · rw [h0]; rfl
  · by_cases h1 : b = 1#8
    · rw [h1]; rfl
    · have hpos : ¬ b - 1#8 = 0#8 := fun h => h1 (sub_eq_zero.1 h)
      simp [soundEdge, h0, h1, hpos]

/-- The edge a tick returns is that of the change of sound_active it makes (spec/60 R240). -/
theorem tick_edge (s : State) : (tick s).2 = edgeOf s.soundActive (tick s).1.soundActive :=
  ((edgeOf_soundActive s (tick s).1).trans (soundEdge_countDown s.st)).symm

/-- The sound edge in a step's result; a blocked step returns no signals (spec/40 R104, R105). -/
def StepResult.edge : StepResult → SoundEdge
  | .ok sig => sig.soundEdge
  | .blocked => .none

/-! ### Updates outside the call stack -/

/-- `u` is `s` after writes to the parts that are neither the call stack, nor the host's to write (keypad, shift source),
each write keeping its part of the invariant. -/
structure DataUpdate (s u : State) : Prop where
  mem : s.mem.wf = true → u.mem.wf = true
  pc : s.pc.toNat < 4096 → u.pc.toNat < 4096
  i : s.i.toNat < 4096 → u.i.toNat < 4096
  stack : u.stack = s.stack
  sp : u.sp = s.sp
  keys : u.keys = s.keys
  shiftSrc : u.shiftSrc = s.shiftSrc

namespace DataUpdate

variable {s u : State}

theorem refl (s : State) : DataUpdate s s := ⟨id, id, id, rfl, rfl, rfl, rfl⟩

theorem inv (h : DataUpdate s u) (hs : s.Inv) : u.Inv where
  mem := h.mem hs.mem
  pc := h.pc hs.pc
  i := h.i hs.i
  stack k hk := by
    rw [h.sp] at hk
    simpa only [h.stack] using hs.stack k hk

theorem writeV (h : DataUpdate s u) (x : Reg) (b : Byte) : DataUpdate s (u.writeV x b) := { h with }

theorem writeI (h : DataUpdate s u) (a : Nat) : DataUpdate s (u.writeI a) := { h with i := fun _ => addr12_lt a }

theorem writeDT (h : DataUpdate s u) (b : Byte) : DataUpdate s (u.writeDT b) := { h with }

theorem writeST (h : DataUpdate s u) (b : Byte) : DataUpdate s (u.writeST b) := { h with }

theorem store (h : DataUpdate s u) (a : Nat) (bs : List Byte) : DataUpdate s (u.store a bs) :=
  { h with mem := fun hs => Memory.wf_writeBytes bs u.mem a (h.mem hs) }

theorem loadRegs (h : DataUpdate s u) (x : Reg) (a : Nat) : DataUpdate s (u.loadRegs x a) := { h with }

theorem takeRnd (h : DataUpdate s u) : DataUpdate s u.takeRnd := { h with }

theorem writeWait (h : DataUpdate s u) (w : Bool) (r : Reg) (p : Word) : DataUpdate s (u.writeWait w r p) := { h with }

theorem writeFB (h : DataUpdate s u) (fb : FrameBuffer) : DataUpdate s (u.writeFB fb) := { h with }

end DataUpdate

/-! ### Steps outside the call stack -/

/-- A step that is a data update and reports the change of sound_active it makes. -/
structure DataStep (s t : State) : Prop extends DataUpdate s t where
  edge : t.result.edge = edgeOf s.soundActive t.soundActive

section Ends

variable {s u t : State}

/-- The commit of a data update at a next PC below 0x1000, with the edge of its change of sound_active. -/
theorem DataUpdate.commit (h : DataUpdate s u) {sig : Signals} {a : Word} (ht : Machine.commit sig a u = .next t)
    (he : sig.soundEdge = edgeOf s.soundActive u.soundActive) (ha : a.toNat < 4096) : DataStep s t := by
  obtain rfl := (commit_eq_next sig a u t).1 ht
  exact { h with pc := fun _ => ha, edge := he }

/-- The commit of a data update that leaves `ST` alone and reports no edge. -/
theorem DataUpdate.commitSilent (h : DataUpdate s u) {sig : Signals} {a : Word} (ht : Machine.commit sig a u = .next t)
    (hst : u.st = s.st) (he : sig.soundEdge = .none) (ha : a.toNat < 4096) : DataStep s t :=
  h.commit ht (he.trans (edgeOf_soundActive_of_st_eq hst).symm) ha

theorem DataUpdate.advance (h : DataUpdate s u) (ht : Machine.advance u = .next t) (hst : u.st = s.st) : DataStep s t :=
  h.commitSilent ht hst rfl (addr12_lt _)

theorem DataUpdate.block (h : DataUpdate s u) (ht : Machine.block u = .next t) (hst : u.st = s.st) : DataStep s t := by
  obtain rfl := (block_eq_next u t).1 ht
  exact { h with edge := (edgeOf_soundActive_of_st_eq hst).symm }

theorem setReg_dataStep {x : Reg} {b : Byte} (ht : setReg x b s = .next t) : DataStep s t :=
  ((DataUpdate.refl s).writeV x b).advance ht rfl

theorem setRegAndFlag_dataStep {x : Reg} {b flag : Byte} (ht : setRegAndFlag x b flag s = .next t) : DataStep s t :=
  (((DataUpdate.refl s).writeV x b).writeV regF flag).advance ht rfl

theorem jump_dataStep {a : Nat} (ht : commit Signals.quiet (addr12 a) s = .next t) : DataStep s t :=
  (DataUpdate.refl s).commitSilent ht rfl rfl (addr12_lt a)

theorem skipIf_dataStep {c : Bool} (ht : skipIf c s = .next t) : DataStep s t := by
  cases c with
  | true => exact jump_dataStep ht
  | false => exact jump_dataStep ht

/-- A poll is a data step, whether or not it ends the wait (spec/45 R212). -/
theorem keyWaitPoll_dataStep (ht : keyWaitPoll s = .next t) : DataStep s t := by
  unfold keyWaitPoll at ht
  split at ht
  next => exact ((DataUpdate.refl s).writeWait _ _ _).block ht rfl
  next => exact (((DataUpdate.refl s).writeV _ _).writeWait _ _ _).advance ht rfl

end Ends

/-! ### Steps on the call stack (spec/10 R28) -/

/-- What CALL and RET leave where they do not fault (spec/41 R121, R123). -/
inductive StackStep (s : State) : Instr → State → Prop where
  | call (nnn : Addr) (hlt : s.sp.val < 16) : StackStep s (.call nnn)
      { s with
        stack := s.stack.set s.sp.val s.pcNext
        sp := ⟨s.sp.val + 1, Nat.succ_lt_succ hlt⟩
        pc := addr12 nnn.toNat
        result := .ok Signals.quiet }
  | ret (k : Fin 16) (hk : s.sp.val = k.val + 1) : StackStep s .ret
      { s with
        sp := ⟨k.val, Nat.lt_succ_of_lt k.isLt⟩
        pc := addr12 s.stack[k].toNat
        result := .ok Signals.quiet }

namespace StackStep

variable {s t : State} {i : Instr}

theorem of_execCall {nnn : Addr} (h : execCall nnn s = .next t) : StackStep s (.call nnn) t := by
  obtain ⟨hlt, hok⟩ | ⟨-, hfault⟩ := execCall_cases nnn s
  · obtain rfl := Host.Outcome.next.inj (hok.symm.trans h)
    exact .call nnn hlt
  · exact nomatch hfault.symm.trans h

theorem of_execRet (h : execRet s = .next t) : StackStep s .ret t := by
  obtain ⟨k, hk, hok⟩ | ⟨-, hfault⟩ := execRet_cases s
  · obtain rfl := Host.Outcome.next.inj (hok.symm.trans h)
    exact .ret k hk
  · exact nomatch hfault.symm.trans h

theorem instr_eq (h : StackStep s i t) : i = .ret ∨ ∃ nnn, i = .call nnn := by
  cases h with
  | call nnn => exact .inr ⟨nnn, rfl⟩
  | ret => exact .inl rfl

theorem keys (h : StackStep s i t) : t.keys = s.keys := by cases h <;> rfl

theorem shiftSrc (h : StackStep s i t) : t.shiftSrc = s.shiftSrc := by cases h <;> rfl

theorem edge (h : StackStep s i t) : t.result.edge = edgeOf s.soundActive t.soundActive := by
  cases h <;> exact (edgeOf_soundActive_of_st_eq rfl).symm

/-- The pushed return address is below 0x1000, and a pop uncovers no entry. -/
theorem inv (h : StackStep s i t) (hs : s.Inv) : t.Inv := by
  cases h with
  | call nnn hlt =>
    refine ⟨hs.mem, addr12_lt _, hs.i, fun j hj => ?_⟩
    simp only [Fin.getElem_fin, Vector.getElem_set]
    split
    · exact addr12_lt _
    · exact hs.stack j (by simp only at hj; omega)
  | ret k hk => exact ⟨hs.mem, addr12_lt _, hs.i, fun j hj => hs.stack j (by simp only at hj; omega)⟩

end StackStep

/-! ### Every step -/

/-- What an executed instruction does: CALL and RET work on the call stack, and the others are data steps. -/
theorem exec_scope {i : Instr} {s t : State} (h : exec i s = .next t) : DataStep s t ∨ StackStep s i t := by
  have hrefl := DataUpdate.refl s
  cases i
  case call => exact .inr (.of_execCall h)
  case ret => exact .inr (.of_execRet h)
  case sys => exact .inl (hrefl.advance h rfl)
  case jp | jpV0 => exact .inl (jump_dataStep h)
  case seI | sneI | seR | sneR | skp | sknp => exact .inl (skipIf_dataStep h)
  case ldI8 | addI8 | ldR | orR | andR | xorR | ldVxDt => exact .inl (setReg_dataStep h)
  case addR | sub | shr | subn | shl => exact .inl (setRegAndFlag_dataStep h)
  case rnd => exact .inl ((hrefl.takeRnd.writeV _ _).advance h rfl)
  case ldIdx | addIdx | ldF => exact .inl ((hrefl.writeI _).advance h rfl)
  case ldB | stRegs => exact .inl ((hrefl.store _ _).advance h rfl)
  case ldRegs => exact .inl ((hrefl.loadRegs _ _).advance h rfl)
  case ldDtVx => exact .inl ((hrefl.writeDT _).advance h rfl)
  case ldStVx x =>
    exact .inl ((hrefl.writeST _).commit h (edgeOf_soundActive s (s.writeST (s.readV x))).symm (addr12_lt _))
  case ldVxK => exact .inl ((hrefl.writeWait _ _ _).block h rfl)
  case cls => exact .inl ((hrefl.writeFB _).commitSilent h rfl rfl (addr12_lt _))
  case drw => exact .inl (((hrefl.writeFB _).writeV _ _).commitSilent h rfl rfl (addr12_lt _))

/-- What a step that goes on does: a data step, or a fetched CALL or RET. -/
theorem step_scope {s t : State} (h : step s = .next t) :
    DataStep s t ∨ s.waitActive = false ∧ ∃ i, decode (fetch16 s.mem s.pc) = .form i ∧ StackStep s i t := by
  obtain ⟨-, hpoll⟩ | ⟨hw, i, hd, hi⟩ := step_cases h
  · exact .inl (keyWaitPoll_dataStep hpoll)
  · exact (exec_scope hi).imp_right fun hstack => ⟨hw, i, hd, hstack⟩

section Step

variable {s t : State}

theorem step_keeps_inv (hs : s.Inv) (h : step s = .next t) : t.Inv := by
  obtain hdata | ⟨-, i, -, hstack⟩ := step_scope h
  · exact hdata.inv hs
  · exact hstack.inv hs

theorem step_edge (h : step s = .next t) : t.result.edge = edgeOf s.soundActive t.soundActive := by
  obtain hdata | ⟨-, i, -, hstack⟩ := step_scope h
  · exact hdata.edge
  · exact hstack.edge

theorem step_keeps_keys (h : step s = .next t) : t.keys = s.keys := by
  obtain hdata | ⟨-, i, -, hstack⟩ := step_scope h
  · exact hdata.keys
  · exact hstack.keys

theorem step_keeps_shiftSrc (h : step s = .next t) : t.shiftSrc = s.shiftSrc := by
  obtain hdata | ⟨-, i, -, hstack⟩ := step_scope h
  · exact hdata.shiftSrc
  · exact hstack.shiftSrc

theorem step_changes_callStack (h : step s = .next t) (hne : t.stack ≠ s.stack ∨ t.sp ≠ s.sp) :
    s.waitActive = false ∧ ∃ i, decode (fetch16 s.mem s.pc) = .form i ∧ StackStep s i t :=
  (step_scope h).resolve_left fun hdata => hne.elim (· hdata.stack) (· hdata.sp)

end Step

/-! ### The host's operations (spec/00 R3) -/

/-- A property of the state that no step changes and that does not read the random argument is kept by the host's
step(rnd), whose fault or refusal leaves the state alone. -/
theorem perform_step_keeps {P : State → Prop} (hrnd : ∀ s r, P s → P { s with rndIn := r })
    (hstep : ∀ s t, P s → step s = .next t → P t) (rnd : Byte) {s : State} (hs : P s) : P (perform (.step rnd) s).1 := by
  have hs' : P { s with rndIn := some rnd } := hrnd s _ hs
  show P (afterStep s (step { s with rndIn := some rnd })).1
  cases h : step { s with rndIn := some rnd } with
  | next t => exact hrnd t none (hstep _ t hs' h)
  | fault f => exact hs
  | refused r => exact hs

theorem load_dataUpdate (bytes : List Byte) (s : State) : DataUpdate s (load bytes s).1 := by
  unfold load
  split
  · exact (DataUpdate.refl s).store _ _
  · exact .refl s

theorem tick_dataUpdate (s : State) : DataUpdate s (tick s).1 := { DataUpdate.refl s with }

theorem skip_dataUpdate (s : State) : DataUpdate s (skip s) := { DataUpdate.refl s with pc := fun _ => addr12_lt _ }

theorem keyWrite_keeps_inv (k : Reg) (pressed : Bool) {s : State} (hs : s.Inv) : (keyWrite k pressed s).Inv := { hs with }

/-- The reset values meet the invariant, whatever stands in the fields that reset keeps (spec/10 R37). -/
theorem State.reset_inv (src : ShiftSrc) (r : Option Byte) (d : Nat) :
    ({ State.reset with shiftSrc := src, rndIn := r, draws := d } : State).Inv where
  mem := rfl
  pc := show State.reset.pc.toNat < 4096 by decide
  i := show State.reset.i.toNat < 4096 by decide
  stack _ hk := absurd hk (Nat.not_lt_zero _)

theorem perform_keeps_inv (op : HostOp) {s : State} (hs : s.Inv) : (perform op s).1.Inv := by
  cases op with
  | reset => exact State.reset_inv _ _ _
  | load bytes => exact (load_dataUpdate bytes s).inv hs
  | step rnd => exact perform_step_keeps (P := State.Inv) (fun _ _ h => { h with }) (fun _ _ => step_keeps_inv) rnd hs
  | tick => exact (tick_dataUpdate s).inv hs
  | keyWrite k pressed => exact keyWrite_keeps_inv k pressed hs
  | fbRead => exact hs
  | skip => exact (skip_dataUpdate s).inv hs

theorem perform_keeps_shiftSrc (op : HostOp) (s : State) : (perform op s).1.shiftSrc = s.shiftSrc := by
  cases op with
  | load bytes => exact (load_dataUpdate bytes s).shiftSrc
  | step rnd =>
    exact perform_step_keeps (P := fun t => t.shiftSrc = s.shiftSrc) (fun _ _ h => h)
      (fun _ _ h ht => (step_keeps_shiftSrc ht).trans h) rnd rfl
  | reset | tick | keyWrite | fbRead | skip => rfl

theorem perform_step_keeps_keys (rnd : Byte) (s : State) : (perform (.step rnd) s).1.keys = s.keys :=
  perform_step_keeps (P := fun t => t.keys = s.keys) (fun _ _ h => h)
    (fun _ _ h ht => (step_keeps_keys ht).trans h) rnd rfl

/-! ### Memory after reset (spec/70 R260, R261) -/

/-- After reset a cell reads as its reset contents. -/
theorem hostReset_readMem (s : State) (a : Nat) : (hostReset s).readMem a = resetByte (a % 4096) := rfl

/-- The font image ends at 0x09F, and below its base every cell is 0. -/
theorem resetByte_eq_zero {a : Nat} (h : a < 0x050 ∨ 0x09F < a) : resetByte a = 0 := by
  have hlen : fontImage.length = 80 := rfl
  rw [resetByte, fontBase]
  split
  · exact List.getD_eq_default _ _ (by omega)
  · rfl

end Sys2Proof.Machine

open Sys2Proof Sys2Proof.Machine

/-- Settles O19: a step is a data step, or CALL or RET, and each keeps every part of the invariant. -/
theorem stepKeepsInvariant : Obligations.StepKeepsInvariant :=
  fun _ _ => step_keeps_inv

/-- Settles O20: the created states hold the reset values, and each operation keeps the invariant. -/
theorem everyOperationKeepsInvariant : Obligations.EveryOperationKeepsInvariant :=
  ⟨fun src => State.reset_inv src _ _, fun op _ => perform_keeps_inv op⟩

/-- Settles O22: every step's result carries the edge of its change, and a blocked one carries none. -/
theorem soundEdgeReportsChange : Obligations.SoundEdgeReportsChange := by
  refine ⟨fun s => decide_eq_true_iff, fun s t sig h hr => ?_, fun s t h hr => ?_, tick_edge⟩
  · have hedge := step_edge h
    rwa [hr] at hedge
  · have hedge := step_edge h
    rw [hr] at hedge
    exact edgeOf_eq_none.1 hedge.symm

/-- Settles O23: key_write may write the keypad and reset clears it, and the other operations keep it. -/
theorem keypadChangesOnlyByHost : Obligations.KeypadChangesOnlyByHost := by
  intro op s hne
  cases op with
  | keyWrite k pressed => exact .inl ⟨k, pressed, rfl⟩
  | reset => exact .inr ⟨rfl, rfl⟩
  | load bytes => exact absurd (load_dataUpdate bytes s).keys hne
  | step rnd => exact absurd (perform_step_keeps_keys rnd s) hne
  | tick | fbRead | skip => exact absurd rfl hne

/-- Settles O24: no step writes the shift source, and reset keeps it. -/
theorem shiftSourceNeverChanges : Obligations.ShiftSourceNeverChanges :=
  perform_keeps_shiftSrc

/-- Settles O25: a step that is no data step fetched CALL or RET. -/
theorem stackChangesOnlyByCallAndRet : Obligations.StackChangesOnlyByCallAndRet := by
  intro s t h hne
  obtain ⟨hw, i, hd, hstack⟩ := step_changes_callStack h hne
  obtain rfl | ⟨nnn, rfl⟩ := hstack.instr_eq
  · exact ⟨hw, .inl hd⟩
  · exact ⟨hw, .inr ⟨nnn, hd⟩⟩

/-- Settles O18: the reset state holds the reset values. -/
theorem invariantAtReset : Obligations.InvariantAtReset :=
  State.reset_inv _ _ _

/-- Settles O60: every field by its reset value, and memory by the font image. -/
theorem resetRestoresState : Obligations.ResetRestoresState := by
  intro s
  refine ⟨hostReset s, rfl, rfl, rfl, rfl, rfl, rfl, ?_, ?_, FrameBuffer.pixel_blank, rfl, rfl, rfl, rfl, ?_, ?_⟩
  · exact fun x => Vector.getElem_replicate x.isLt
  · exact fun k => Vector.getElem_replicate k.isLt
  · exact fun a ha => (hostReset_readMem s a).trans (resetByte_eq_zero ha)
  · simp only [hostReset_readMem]
    decide

end

