-- ==== Sys2Proof/Proofs/MemoryContents.lean ====
section
/-! PROOFS. What memory holds (spec/20): that the canonical list is fixed by what its cells read as (R50), what one byte
stored changes (R52, R60), and the two bytes of a fetched word (R53, R59). -/

namespace Sys2Proof.Machine

/-! ### The canonical list and its reads (spec/20 R50) -/

/-- The listed addresses rise. -/
theorem Memory.pairwise_lt_of_wf {m : Memory} (h : m.wf = true) : List.Pairwise (InvImage (· < ·) Prod.fst) m := by
  induction m with
  | nil => exact .nil
  | cons c m ih =>
    obtain ⟨⟨-, -, hrise⟩, hm⟩ := (Memory.wf_cons c m).1 h
    exact .cons hrise (ih hm)

/-- A listed cell is in range and differs from its reset contents. -/
theorem Memory.lt_and_ne_resetByte_of_mem {m : Memory} {c : Host.Cell} (h : m.wf = true) (hc : c ∈ m) :
    c.1 < 4096 ∧ c.2 ≠ resetByte c.1 := by
  induction m with
  | nil => simp at hc
  | cons d m ih =>
    obtain ⟨⟨hlt, hne, -⟩, hm⟩ := (Memory.wf_cons d m).1 h
    obtain rfl | hc := List.mem_cons.1 hc
    · exact ⟨hlt, hne⟩
    · exact ih hm hc

/-- As the addresses rise, no cell hides another of its address. -/
theorem Memory.lookup_eq_some_iff {m : Memory} (h : m.wf = true) (a : Nat) (b : Byte) :
    Memory.lookup m a = some b ↔ (a, b) ∈ m := by
  induction m with
  | nil => simp [Memory.lookup]
  | cons c m ih =>
    obtain ⟨⟨-, -, hrise⟩, hm⟩ := (Memory.wf_cons c m).1 h
    rw [Memory.lookup, List.mem_cons]
    split
    next heq =>
      have hnot : (a, b) ∉ m := fun hmem => (hrise _ hmem).ne heq
      simp [Prod.ext_iff, heq, hnot, eq_comm]
    next hne => simp [Prod.ext_iff, Ne.symm hne, ih hm]

/-- The cells listed are those that read otherwise than after reset, each with what it reads as. -/
theorem Memory.mem_iff_readByte {m : Memory} (h : m.wf = true) (c : Host.Cell) :
    c ∈ m ↔ c.1 < 4096 ∧ c.2 ≠ resetByte c.1 ∧ m.readByte c.1 = c.2 := by
  have hlookup := Memory.lookup_eq_some_iff h c.1 c.2
  constructor
  · intro hc
    obtain ⟨hlt, hne⟩ := Memory.lt_and_ne_resetByte_of_mem h hc
    refine ⟨hlt, hne, ?_⟩
    rw [Memory.readByte, Nat.mod_eq_of_lt hlt, hlookup.2 hc, Option.getD_some]
  · rintro ⟨hlt, hne, hread⟩
    rw [Memory.readByte, Nat.mod_eq_of_lt hlt] at hread
    cases hl : Memory.lookup m c.1 with
    | none => exact absurd (by rw [← hread, hl, Option.getD_none]) hne
    | some b => exact hlookup.1 (by rw [hl, ← hread, hl, Option.getD_some])

/-- Canonical memories that read alike list the same cells, in the same order. -/
theorem Memory.eq_of_readByte_eq {m m' : Memory} (h : m.wf = true) (h' : m'.wf = true)
    (hread : ∀ a, a < 4096 → m.readByte a = m'.readByte a) : m = m' := by
  refine (Memory.pairwise_lt_of_wf h).eq_of_mem_iff (Memory.pairwise_lt_of_wf h') fun c => ?_
  rw [Memory.mem_iff_readByte h, Memory.mem_iff_readByte h']
  exact and_congr_right fun hlt => by rw [hread c.1 hlt]

/-! ### Stored bytes (spec/20 R52, R60) -/

theorem Memory.readByte_writeByte_of_mod_eq (m : Memory) {a k : Nat} (b : Byte) (h : k % 4096 = a % 4096) :
    (m.writeByte a b).readByte k = b := by
  rw [Memory.readByte_writeByte, if_pos h]

theorem Memory.readByte_writeByte_of_mod_ne (m : Memory) {a k : Nat} (b : Byte) (h : k % 4096 ≠ a % 4096) :
    (m.writeByte a b).readByte k = m.readByte k := by
  rw [Memory.readByte_writeByte, if_neg h]

/-- Both orders read alike: a cell written by one of the two writes is not written by the other. -/
theorem Memory.writeByte_comm {m : Memory} (h : m.wf = true) {a b : Nat} (hab : a % 4096 ≠ b % 4096) (v w : Byte) :
    (m.writeByte a v).writeByte b w = (m.writeByte b w).writeByte a v := by
  refine Memory.eq_of_readByte_eq (Memory.wf_writeByte _ _ _ (Memory.wf_writeByte _ _ _ h))
    (Memory.wf_writeByte _ _ _ (Memory.wf_writeByte _ _ _ h)) fun k _ => ?_
  simp only [Memory.readByte_writeByte]
  by_cases hk : k % 4096 = b % 4096
  · have hka : k % 4096 ≠ a % 4096 := fun hka => hab (hka.symm.trans hk)
    rw [if_pos hk, if_neg hka, if_pos hk]
  · rw [if_neg hk, if_neg hk]

/-! ### The bytes of a fetched word (spec/20 R53, R59) -/

@[simp] theorem highByte_fetch16 (m : Memory) (pc : Word) : highByte (fetch16 m pc) = m.readByte pc.toNat :=
  highByte_wordOfBytes _ _

@[simp] theorem lowByte_fetch16 (m : Memory) (pc : Word) : lowByte (fetch16 m pc) = m.readByte (pc.toNat + 1) :=
  lowByte_wordOfBytes _ _

/-- The word one address down has its low byte at the address, also where the subtraction wraps. -/
theorem toNat_sub_one_succ_mod (a : Word) : ((a - 1).toNat + 1) % 4096 = a.toNat % 4096 := by
  bv_omega

end Sys2Proof.Machine

open Sys2Proof Sys2Proof.Machine

/-- Settles O14: both orders keep the canonical form and read alike. -/
theorem distinctWritesCommute : Obligations.DistinctWritesCommute :=
  fun _ _ _ v w h hab => Memory.writeByte_comm h hab v w

/-- Settles O16: of the four bytes fetched, the two at the stored address are the stored byte, and the two beside it are
as before. -/
theorem storeIsSeenByFetch : Obligations.StoreIsSeenByFetch := by
  intro m a v
  simp only [highByte_fetch16, lowByte_fetch16]
  have hdown := toNat_sub_one_succ_mod a
  refine ⟨?_, ?_, ?_, ?_⟩
  · exact Memory.readByte_writeByte_of_mod_eq m v rfl
  · exact Memory.readByte_writeByte_of_mod_ne m v (by omega)
  · exact Memory.readByte_writeByte_of_mod_eq m v hdown
  · exact Memory.readByte_writeByte_of_mod_ne m v (by omega)

/-- Settles O17: the reads fix which cells are listed, and the order of addresses fixes the list. -/
theorem equalReadsEqualMemories : Obligations.EqualReadsEqualMemories :=
  fun _ _ h h' hread => Memory.eq_of_readByte_eq h h' hread

/-- Settles O13: the read after one write. -/
theorem readAfterWrite : Obligations.ReadAfterWrite :=
  fun s a b v => Memory.readByte_writeByte s.mem a b v

/-- Settles O15: the word of two bytes as a number, each byte's address taken mod 4096. -/
theorem fetchIsBigEndian : Obligations.FetchIsBigEndian := by
  intro m pc
  rw [Memory.readByte_mod, Memory.readByte_mod]
  exact wordOfBytes_toNat _ _

end

