-- ==== Sys2Proof/Proofs/Encoding.lean ====
section
/-! PROOFS. The decoder and the encoder (spec/30): each undoes the other (R84, R85, R90), and the words the decoder has
no form for are the five patterns of R86. -/

namespace Sys2Proof

/-! ### A word from its operand fields, where its fixed fields are known (spec/30 R83) -/

theorem wordONNN_of_fieldO {w : Word} {o : Nibble} (ho : (fieldO w).toNat = o.toNat) :
    wordONNN o (fieldNNN w) = w := by
  rw [← BitVec.eq_of_toNat_eq ho, wordONNN_fields]

theorem wordOXNN_of_fieldO {w : Word} {o : Nibble} (ho : (fieldO w).toNat = o.toNat) :
    wordOXNN o (fieldX w) (fieldNN w) = w := by
  rw [← BitVec.eq_of_toNat_eq ho, wordOXNN_fields]

theorem wordOXNN_of_fieldNN {w : Word} {o : Nibble} {nn : Byte} (ho : (fieldO w).toNat = o.toNat)
    (hnn : (fieldNN w).toNat = nn.toNat) : wordOXNN o (fieldX w) nn = w := by
  rw [← BitVec.eq_of_toNat_eq hnn, wordOXNN_of_fieldO ho]

theorem wordOXYN_of_fieldO {w : Word} {o : Nibble} (ho : (fieldO w).toNat = o.toNat) :
    wordOXYN o (fieldX w) (fieldY w) (fieldN w) = w := by
  rw [← BitVec.eq_of_toNat_eq ho, wordOXYN_fields]

theorem wordOXYN_of_fieldN {w : Word} {o n : Nibble} (ho : (fieldO w).toNat = o.toNat)
    (hn : (fieldN w).toNat = n.toNat) : wordOXYN o (fieldX w) (fieldY w) n = w := by
  rw [← BitVec.eq_of_toNat_eq hn, wordOXYN_of_fieldO ho]

/-! ### Decoding an encoded instruction -/

/-- A word of format `0NNN` is neither `00E0` nor `00EE` where its address is neither `0E0` nor `0EE`. -/
theorem decode0_wordONNN {nnn : Addr} (hcls : nnn ≠ 0x0E0#12) (hret : nnn ≠ 0x0EE#12) :
    decode0 (wordONNN 0x0 nnn) = .form (.sys nnn) := by
  have hcls' : wordONNN 0x0 nnn ≠ 0x00E0#16 := ne_of_apply_ne fieldNNN (by rwa [fieldNNN_wordONNN])
  have hret' : wordONNN 0x0 nnn ≠ 0x00EE#16 := ne_of_apply_ne fieldNNN (by rwa [fieldNNN_wordONNN])
  rw [decode0, if_neg hcls', if_neg hret', fieldNNN_wordONNN]

theorem decode_encode (i : Instr) (hwf : i.wf = true) : decode (encode i) = .form i := by
  cases i with
  | sys nnn =>
    obtain ⟨hcls, hret⟩ : nnn ≠ 0x0E0#12 ∧ nnn ≠ 0x0EE#12 := by simpa [Instr.wf] using hwf
    simpa [encode, decode] using decode0_wordONNN hcls hret
  | cls | ret => rfl
  | jp | call | ldIdx | jpV0 => simp [encode, decode]
  | seI | sneI | ldI8 | addI8 | rnd => simp [encode, decode]
  | seR | sneR | drw => simp [encode, decode]
  | ldR | orR | andR | xorR | addR | sub | shr | subn | shl => simp [encode, decode, decode8]
  | skp | sknp => simp [encode, decode, decodeE]
  | ldVxDt | ldVxK | ldDtVx | ldStVx | addIdx | ldF | ldB | stRegs | ldRegs => simp [encode, decode, decodeF]

/-! ### Encoding a decoded word -/

/-- If the decoder's answer is a form, it is well-formed and its word is the given one (spec/30 R90). -/
def Decoded.EncodesTo (d : Decoded) (w : Word) : Prop := ∀ i, d = .form i → encode i = w ∧ i.wf = true

theorem Decoded.encodesTo_form {i : Instr} {w : Word} (h : encode i = w) (hwf : i.wf = true) :
    (Decoded.form i).EncodesTo w := by
  rintro _ ⟨⟩
  exact ⟨h, hwf⟩

theorem Decoded.encodesTo_unknown (w : Word) : Decoded.unknown.EncodesTo w := nofun

/-- `0NNN` is left to SYS only where the word is neither `00E0` nor `00EE`, so its address is neither. -/
theorem decode0_encodesTo {w : Word} (ho : (fieldO w).toNat = 0x0) : (decode0 w).EncodesTo w := by
  have hw : wordONNN 0x0 (fieldNNN w) = w := wordONNN_of_fieldO ho
  unfold decode0
  split
  next h => exact Decoded.encodesTo_form h.symm rfl
  next hcls =>
    split
    next h => exact Decoded.encodesTo_form h.symm rfl
    next hret =>
      have hcls' : fieldNNN w ≠ 0x0E0#12 := fun e => hcls (by rw [← hw, e]; rfl)
      have hret' : fieldNNN w ≠ 0x0EE#12 := fun e => hret (by rw [← hw, e]; rfl)
      exact Decoded.encodesTo_form hw (by simp [Instr.wf, hcls', hret'])

theorem decode8_encodesTo {w : Word} (ho : (fieldO w).toNat = 0x8) : (decode8 w).EncodesTo w := by
  unfold decode8
  split
  case h_10 => exact Decoded.encodesTo_unknown w
  all_goals next hn => exact Decoded.encodesTo_form (wordOXYN_of_fieldN ho hn) rfl

theorem decodeE_encodesTo {w : Word} (ho : (fieldO w).toNat = 0xE) : (decodeE w).EncodesTo w := by
  unfold decodeE
  split
  case h_3 => exact Decoded.encodesTo_unknown w
  all_goals next hnn => exact Decoded.encodesTo_form (wordOXNN_of_fieldNN ho hnn) rfl

theorem decodeF_encodesTo {w : Word} (ho : (fieldO w).toNat = 0xF) : (decodeF w).EncodesTo w := by
  unfold decodeF
  split
  case h_10 => exact Decoded.encodesTo_unknown w
  all_goals next hnn => exact Decoded.encodesTo_form (wordOXNN_of_fieldNN ho hnn) rfl

theorem decode_encodesTo (w : Word) : (decode w).EncodesTo w := by
  unfold decode
  split
  case h_1 ho => exact decode0_encodesTo ho
  case h_2 ho | h_3 ho | h_11 ho | h_12 ho => exact Decoded.encodesTo_form (wordONNN_of_fieldO ho) rfl
  case h_4 ho | h_5 ho | h_7 ho | h_8 ho | h_13 ho => exact Decoded.encodesTo_form (wordOXNN_of_fieldO ho) rfl
  case h_6 ho | h_10 ho =>
    split
    next hn => exact Decoded.encodesTo_form (wordOXYN_of_fieldN ho (congrArg BitVec.toNat hn)) rfl
    next => exact Decoded.encodesTo_unknown w
  case h_9 ho => exact decode8_encodesTo ho
  case h_14 ho => exact Decoded.encodesTo_form (wordOXYN_of_fieldO ho) rfl
  case h_15 ho => exact decodeE_encodesTo ho
  case h_16 =>
    have hlt := (fieldO w).isLt
    simp only [imp_false] at *
    exact decodeF_encodesTo (by omega)

/-! ### The illegal words (spec/30 R86) -/

theorem decode0_ne_unknown (w : Word) : decode0 w ≠ .unknown := by
  unfold decode0
  split
  · nofun
  · split <;> nofun

theorem decode8_eq_unknown_iff (w : Word) :
    decode8 w = .unknown ↔ fieldN w ∈ [0x8, 0x9, 0xA, 0xB, 0xC, 0xD, 0xF] := by
  unfold decode8
  split
  case h_10 =>
    have hlt := (fieldN w).isLt
    simp only [imp_false] at *
    have hn : (fieldN w).toNat ∈ [0x8, 0x9, 0xA, 0xB, 0xC, 0xD, 0xF] := by
      simp only [List.mem_cons, List.not_mem_nil, or_false]
      omega
    simpa [BitVec.toNat_eq] using hn
  all_goals next hn => simp [BitVec.toNat_eq, hn]

theorem decodeE_eq_unknown_iff (w : Word) : decodeE w = .unknown ↔ fieldNN w ∉ [0x9E, 0xA1] := by
  unfold decodeE
  split
  case h_3 => simp_all [BitVec.toNat_eq]
  all_goals next hnn => simp [BitVec.toNat_eq, hnn]

theorem decodeF_eq_unknown_iff (w : Word) :
    decodeF w = .unknown ↔ fieldNN w ∉ [0x07, 0x0A, 0x15, 0x18, 0x1E, 0x29, 0x33, 0x55, 0x65] := by
  unfold decodeF
  split
  case h_10 => simp_all [BitVec.toNat_eq]
  all_goals next hnn => simp [BitVec.toNat_eq, hnn]

/-- Only the arms of the nibbles 5, 8, 9, E and F can answer unknown: the first and third where `N` is not 0, the others
where their own decoder does. -/
theorem decode_eq_unknown_iff (w : Word) : decode w = .unknown ↔
    (fieldO w = 0x5 ∧ fieldN w ≠ 0x0) ∨
    (fieldO w = 0x8 ∧ decode8 w = .unknown) ∨
    (fieldO w = 0x9 ∧ fieldN w ≠ 0x0) ∨
    (fieldO w = 0xE ∧ decodeE w = .unknown) ∨
    (fieldO w = 0xF ∧ decodeF w = .unknown) := by
  unfold decode
  split
  case h_1 ho => simp [BitVec.toNat_eq, ho, decode0_ne_unknown]
  case h_16 =>
    have hlt := (fieldO w).isLt
    simp only [imp_false] at *
    have ho : (fieldO w).toNat = 0xF := by omega
    simp [BitVec.toNat_eq, ho]
  all_goals next ho => simp [BitVec.toNat_eq, ho]

end Sys2Proof

open Sys2Proof

/-- Settles O2: the word of each form has the form's fixed fields, which choose the decoder's arm, and its operands. -/
theorem decodeOfEncode : Obligations.DecodeOfEncode :=
  decode_encode

/-- Settles O3: each arm of the decoder checks the fixed fields of its form and reads every other field. -/
theorem encodeOfDecode : Obligations.EncodeOfDecode :=
  decode_encodesTo

/-- Settles O4: the arms of `decode` that can answer unknown, and the patterns for which they do. -/
theorem illegalWordsAreExactly : Obligations.IllegalWordsAreExactly := by
  intro w
  rw [decode_eq_unknown_iff, decode8_eq_unknown_iff, decodeE_eq_unknown_iff, decodeF_eq_unknown_iff]

/-- Settles O1: the decoder evaluated on the twelve words. -/
theorem tableWordsDecode : Obligations.TableWordsDecode := by
  unfold Obligations.TableWordsDecode
  decide

end

