-- ==== Sys2Proof/Proofs/InstructionCycle.lean ====
section
/-! PROOFS. The instruction cycle (spec/40): the outcomes an instruction and a step can have (R100, R109), the steps that
block (R105), the inputs a poll does not read (R107), a step that faults and is taken again (R102, spec/60 R235, R237), and
the self jump as a rest point (R110). -/

namespace Sys2Proof.Machine

/-! ### What an instruction can answer (spec/40 R104, R105, spec/60 R232, R233) -/

/-- The outcomes of an executed instruction: it commits, or FX0A enters the wait, or CALL and RET fault on the stack. -/
inductive ExecOutcome (s : State) : Instr → Outcome → Prop where
  | commits {i : Instr} (hi : ∀ x, i ≠ .ldVxK x) (sig : Signals) (a : Word) (u : State) :
      ExecOutcome s i (commit sig a u)
  | entersWait (x : Reg) : ExecOutcome s (.ldVxK x) (block (s.writeWait true x s.keys))
  | overflows (nnn : Addr) (hsp : s.sp.val = 16) :
      ExecOutcome s (.call nnn) (.fault (.stackOverflow s.pc (encode (.call nnn))))
  | underflows (hsp : s.sp.val = 0) : ExecOutcome s .ret (.fault (.stackUnderflow s.pc (encode .ret)))

theorem execCall_outcome (nnn : Addr) (s : State) : ExecOutcome s (.call nnn) (execCall nnn s) := by
  unfold execCall
  cases hpush : s.push s.pcNext with
  | some u => exact .commits (by nofun) _ _ u
  | none => exact .overflows nnn (State.push_none.1 hpush)

theorem execRet_outcome (s : State) : ExecOutcome s .ret (execRet s) := by
  unfold execRet
  cases hpop : s.pop with
  | some p => exact .commits (by nofun) _ _ p.2
  | none => exact .underflows (State.pop_none.1 hpop)

/-- Every arm but those of CALL, RET and FX0A is a commit. -/
theorem exec_outcome (i : Instr) (s : State) : ExecOutcome s i (exec i s) := by
  cases i
  case call nnn => exact execCall_outcome nnn s
  case ret => exact execRet_outcome s
  case ldVxK x => exact .entersWait x
  all_goals exact .commits (by nofun) _ _ _

theorem exec_ne_refused (i : Instr) (s : State) (r : Refusal) : exec i s ≠ .refused r := by
  intro h
  have hout := exec_outcome i s
  rw [h] at hout
  nomatch hout

/-- An instruction faults only on the stack, as its depth and PC say. -/
theorem exec_eq_fault_iff (i : Instr) (s : State) (f : Fault) : exec i s = .fault f ↔
    (∃ nnn, i = .call nnn ∧ s.sp.val = 16 ∧ f = .stackOverflow s.pc (encode (.call nnn))) ∨
    (i = .ret ∧ s.sp.val = 0 ∧ f = .stackUnderflow s.pc (encode .ret)) := by
  constructor
  · intro h
    have hout := exec_outcome i s
    rw [h] at hout
    cases hout with
    | overflows nnn hsp => exact .inl ⟨nnn, rfl, hsp, rfl⟩
    | underflows hsp => exact .inr ⟨rfl, hsp, rfl⟩
  · rintro (⟨nnn, rfl, hsp, rfl⟩ | ⟨rfl, hsp, rfl⟩)
    · obtain ⟨hlt, -⟩ | ⟨-, hfault⟩ := execCall_cases nnn s
      · omega
      · exact hfault
    · obtain ⟨k, hk, -⟩ | ⟨-, hfault⟩ := execRet_cases s
      · omega
      · exact hfault

/-- An executed instruction returns Blocked where it is FX0A, which keeps PC (spec/45 R211). -/
theorem exec_blocked {i : Instr} {s t : State} (h : exec i s = .next t) :
    (t.result = .blocked ↔ ∃ x, i = .ldVxK x) ∧ (t.result = .blocked → t.pc = s.pc) := by
  have hout := exec_outcome i s
  rw [h] at hout
  cases hout with
  | commits hi sig a u =>
    have hne : StepResult.ok sig ≠ .blocked := nofun
    exact ⟨⟨(absurd · hne), fun ⟨x, hx⟩ => absurd hx (hi x)⟩, (absurd · hne)⟩
  | entersWait x => exact ⟨⟨fun _ => ⟨x, rfl⟩, fun _ => rfl⟩, fun _ => rfl⟩

/-! ### The poll of a key wait (spec/45 R212) -/

theorem keyWaitPoll_of_none {s : State} (h : leastKey s.newKeys = none) :
    keyWaitPoll s = block (s.writeWait s.waitActive s.waitReg s.keys) := by
  rw [keyWaitPoll, h]

theorem keyWaitPoll_of_some {s : State} {k : Reg} (h : leastKey s.newKeys = some k) :
    keyWaitPoll s = advance ((s.writeV s.waitReg (BitVec.ofNat 8 k.val)).writeWait false s.waitReg s.waitPrev) := by
  rw [keyWaitPoll, h]

theorem leastKey_newKeys_eq_none_iff (s : State) : leastKey s.newKeys = none ↔ NoNewKey s := by
  rw [leastKey_eq_none]
  refine forall_congr' fun k => ?_
  rw [State.newKeys_bit]
  cases s.keys.getLsbD k.val <;> simp

theorem keyWaitPoll_goesOn (s : State) : ∃ t, keyWaitPoll s = .next t := by
  obtain ⟨-, hpoll⟩ | ⟨k, -, hpoll⟩ := keyWaitPoll_cases s
  · exact ⟨_, hpoll⟩
  · exact ⟨_, hpoll⟩

/-- A poll carries memory and the random argument through unread (spec/40 R107). -/
theorem keyWaitPoll_with_mem_rndIn {s t : State} (h : keyWaitPoll s = .next t) (m : Memory) (r : Option Byte) :
    keyWaitPoll { s with mem := m, rndIn := r } = .next { t with mem := m, rndIn := r } := by
  cases hk : leastKey s.newKeys with
  | none =>
    rw [keyWaitPoll_of_none hk] at h
    cases h
    exact keyWaitPoll_of_none (s := { s with mem := m, rndIn := r }) hk
  | some k =>
    rw [keyWaitPoll_of_some hk] at h
    cases h
    exact keyWaitPoll_of_some (s := { s with mem := m, rndIn := r }) hk

/-- A poll returns Blocked where it finds no new key, and then keeps PC. -/
theorem keyWaitPoll_blocked {s t : State} (h : keyWaitPoll s = .next t) :
    (t.result = .blocked ↔ NoNewKey s) ∧ (t.result = .blocked → t.pc = s.pc) := by
  rw [← leastKey_newKeys_eq_none_iff]
  cases hk : leastKey s.newKeys with
  | none =>
    rw [keyWaitPoll_of_none hk, block_eq_next] at h
    simp [h]
  | some k =>
    rw [keyWaitPoll_of_some hk, advance_eq_commit, commit_eq_next] at h
    simp [h]

/-! ### What a step can answer (spec/40 R100) -/

/-- An illegal word fetched with no wait pending faults (spec/60 R231). -/
theorem step_of_decode_unknown {s : State} (hw : s.waitActive = false) (hd : decode (fetch16 s.mem s.pc) = .unknown) :
    step s = .fault (.decodeFault s.pc (fetch16 s.mem s.pc)) := by
  rw [step_running hw, fetchAndExecute, hd, raise]

/-- A step goes on, as a poll always does, or no wait is pending and it turns on what the fetched word decodes to. -/
theorem step_next_or_decode (s : State) :
    (∃ t, step s = .next t) ∨
    (s.waitActive = false ∧ decode (fetch16 s.mem s.pc) = .unknown) ∨
    (s.waitActive = false ∧ ∃ i, decode (fetch16 s.mem s.pc) = .form i) := by
  cases hw : s.waitActive with
  | true =>
    rw [step_waiting hw]
    exact .inl (keyWaitPoll_goesOn s)
  | false =>
    cases hd : decode (fetch16 s.mem s.pc) with
    | unknown => exact .inr (.inl ⟨rfl, rfl⟩)
    | form i => exact .inr (.inr ⟨rfl, i, rfl⟩)

theorem step_ne_refused (s : State) (r : Refusal) : step s ≠ .refused r := by
  obtain ⟨t, hnext⟩ | ⟨hw, hd⟩ | ⟨hw, i, hd⟩ := step_next_or_decode s
  · rw [hnext]
    nofun
  · rw [step_of_decode_unknown hw hd]
    nofun
  · rw [step_of_decode_form hw hd]
    exact exec_ne_refused i s r

/-- A fault does not depend on the random argument: it is read off the wait, PC, memory and the depth of the stack. -/
theorem step_fault_with_rndIn {s : State} {f : Fault} (h : step s = .fault f) (r : Option Byte) :
    step { s with rndIn := r } = .fault f := by
  obtain ⟨t, hnext⟩ | ⟨hw, hd⟩ | ⟨hw, i, hd⟩ := step_next_or_decode s
  · exact nomatch hnext.symm.trans h
  · rw [step_of_decode_unknown hw hd] at h
    exact (step_of_decode_unknown (s := { s with rndIn := r }) hw hd).trans h
  · rw [step_of_decode_form hw hd, exec_eq_fault_iff] at h
    exact (step_of_decode_form (s := { s with rndIn := r }) hw hd).trans ((exec_eq_fault_iff i _ f).2 h)

/-- The host's step(rnd) reports a fault where the step faults, and then keeps the state (spec/40 R102). -/
theorem perform_step_eq_faulted_iff (s t : State) (rnd : Byte) (f : FaultReport) :
    perform (.step rnd) s = (t, .faulted f) ↔
      t = s ∧ ∃ g : Fault, step { s with rndIn := some rnd } = .fault g ∧ g.report = f := by
  rw [perform, stepWith]
  cases step { s with rndIn := some rnd } <;> simp [afterStep, eq_comm]

/-! ### Rest (spec/40 R110) -/

/-- A run of any length stays in a state whose step gives the state back. -/
theorem run_of_step_eq_self {M : Host.Core} {s : M.State} (h : M.step s = .next s) (n : Nat) : M.run n s = .next s := by
  induction n with
  | zero => rfl
  | succ n ih => rw [Host.Core.run, h]; exact ih

/-- An address field is a PC value as it stands. -/
theorem addr12_addr_toNat (nnn : Addr) : (addr12 nnn.toNat).toNat = nnn.toNat := by
  rw [addr12_toNat, Nat.mod_eq_of_lt nnn.isLt]

/-- A jump to PC changes at most the last result. -/
theorem execJp_self {s : State} {nnn : Addr} (hpc : s.pc.toNat = nnn.toNat) :
    execJp nnn s = .next { s with result := .ok Signals.quiet } := by
  have haddr : addr12 nnn.toNat = s.pc := BitVec.eq_of_toNat_eq ((addr12_addr_toNat nnn).trans hpc.symm)
  rw [execJp, haddr, commit]

end Sys2Proof.Machine

open Sys2Proof Sys2Proof.Machine

/-- Settles O7: a pending step is a poll, which reads neither. -/
theorem pendingWaitReadsNoMemory : Obligations.PendingWaitReadsNoMemory := by
  intro s t hw h m r
  rw [step_waiting hw] at h
  exact (step_waiting (s := { s with mem := m, rndIn := r }) hw).trans (keyWaitPoll_with_mem_rndIn h m r)

/-- Settles O8: neither the poll, nor the decode fault, nor any arm is a refusal. -/
theorem stepNeverRefused : Obligations.StepNeverRefused :=
  step_ne_refused

/-- Settles O9: the state is kept, and nothing that decides the fault is the random byte. -/
theorem faultFreezesState : Obligations.FaultFreezesState := by
  intro s t rnd f h
  obtain ⟨rfl, g, hg, hrep⟩ := (perform_step_eq_faulted_iff s t rnd f).1 h
  exact ⟨rfl, fun rnd' => (perform_step_eq_faulted_iff t t rnd' f).2 ⟨rfl, g, step_fault_with_rndIn hg (some rnd'), hrep⟩⟩

/-- Settles O11: the two cases of a step that goes on, a poll and an executed instruction. -/
theorem blockedExactly : Obligations.BlockedExactly := by
  intro s t h
  obtain ⟨hw, hpoll⟩ | ⟨hw, i, hd, hi⟩ := step_cases h
  · simpa [hw] using keyWaitPoll_blocked hpoll
  · simpa [hw, hd] using exec_blocked hi

/-- Settles O12: the step gives the state back, and so does a run of any length. -/
theorem selfJumpRests : Obligations.SelfJumpRests := by
  intro s nnn hw hok hd hpc n
  have hstep : step s = .next { s with result := .ok Signals.quiet } :=
    (step_of_decode_form hw hd).trans (execJp_self hpc)
  have hself : { s with result := .ok Signals.quiet } = s := congrArg (fun r => { s with result := r }) hok.symm
  exact run_of_step_eq_self (M := core) (hstep.trans (congrArg _ hself)) n

end

