-- ==== Sys2Proof/Proofs/ControlFlow.lean ====
section
/-! PROOFS. The control flow instructions (spec/41): what a commit and a write to the call stack leave unchanged, the jumps
and skips as commits (R120, R122, R124 to R128), and CALL and RET as the two stack steps (R121, R123). -/

namespace Sys2Proof.Machine

/-! ### Frames -/

theorem Part.same_refl (s : State) (p : Part) : p.same s s := by cases p <;> simp [Part.same]

theorem Part.same_trans {s t u : State} {p : Part} (h : p.same s t) (h' : p.same t u) : p.same s u := by
  cases p
  case index | delayTimer | soundTimer | framebuffer | keypad | shiftSource => exact h'.trans h
  case callStack | randomInput => exact ⟨h'.1.trans h.1, h'.2.trans h.2⟩
  case keyWait => exact ⟨h'.1.trans h.1, h'.2.1.trans h.2.1, h'.2.2.trans h.2.2⟩

namespace Frame

variable {s t u : State} {regs : Reg → Prop} {cells : Nat → Prop} {parts : List Part}

theorem refl (s : State) : Frame s s regs cells parts := ⟨fun _ _ => rfl, fun _ _ => rfl, fun p _ => p.same_refl s⟩

theorem trans (h : Frame s t regs cells parts) (h' : Frame t u regs cells parts) : Frame s u regs cells parts where
  regs y hy := (h'.regs y hy).trans (h.regs y hy)
  cells a ha := (h'.cells a ha).trans (h.cells a ha)
  parts p hp := Part.same_trans (h.parts p hp) (h'.parts p hp)

/-- The commit's own writes, PC and the last result, are outside every frame. -/
theorem commit (h : Frame s u regs cells parts) (a : Word) (r : StepResult) :
    Frame s { u with pc := a, result := r } regs cells parts where
  regs := h.regs
  cells := h.cells
  parts p hp := by
    have hsame := h.parts p hp
    cases p <;> exact hsame

theorem writeCallStack (h : Frame s u regs cells parts) (hmem : Part.callStack ∈ parts) (stack : Vector Word 16)
    (sp : Fin 17) : Frame s { u with stack := stack, sp := sp } regs cells parts where
  regs := h.regs
  cells := h.cells
  parts p hp := by
    have hsame := h.parts p hp
    cases p
    case callStack => exact absurd hmem hp
    all_goals exact hsame

end Frame

/-! ### Jumps and skips (spec/41 R120, R122, R124 to R128) -/

/-- A quiet commit goes on with the given PC and changes nothing else. -/
theorem commit_quiet (a : Word) (s : State) :
    ∃ t, commit Signals.quiet a s = .next t ∧ t.pc = a ∧ ReturnedOk t ∧ Frame s t noReg noCell [] :=
  ⟨_, rfl, rfl, rfl, (Frame.refl s).commit a _⟩

theorem advance_moves_two (s : State) :
    ∃ t, advance s = .next t ∧ PcMoved s t 2 ∧ ReturnedOk t ∧ Frame s t noReg noCell [] := by
  obtain ⟨t, hnext, hpc, hrest⟩ := commit_quiet s.pcNext s
  exact ⟨t, hnext, by rw [PcMoved, hpc, State.pcNext_toNat], hrest⟩

theorem skipIf_moves_four_or_two (c : Prop) [Decidable c] (s : State) :
    ∃ t, skipIf (decide c) s = .next t ∧ PcMoved s t (if c then 4 else 2) ∧ ReturnedOk t ∧
      Frame s t noReg noCell [] := by
  rw [skipIf_eq_commit]
  obtain ⟨t, hnext, hpc, hrest⟩ := commit_quiet (if decide c then s.pcSkip else s.pcNext) s
  refine ⟨t, hnext, ?_, hrest⟩
  rw [PcMoved, hpc]
  by_cases hc : c <;> simp [hc]

/-! ### CALL and RET (spec/41 R121, R123) -/

section CallStack

variable {s t : State} {nnn : Addr} {k : Fin 16}

theorem exec_call_of_lt (h : s.sp.val < 16) (nnn : Addr) :
    ∃ t, exec (.call nnn) s = .next t ∧ StackStep s (.call nnn) t := by
  obtain ⟨hlt, hok⟩ | ⟨hfull, -⟩ := execCall_cases nnn s
  · exact ⟨_, hok, .call nnn hlt⟩
  · omega

theorem exec_ret_of_eq_succ (h : s.sp.val = k.val + 1) : ∃ t, exec .ret s = .next t ∧ StackStep s .ret t := by
  obtain ⟨j, hj, hok⟩ | ⟨hempty, -⟩ := execRet_cases s
  · exact ⟨_, hok, .ret j hj⟩
  · omega

namespace StackStep

theorem returnedOk {i : Instr} (h : StackStep s i t) : ReturnedOk t := by cases h <;> rfl

theorem frame {i : Instr} (h : StackStep s i t) : Frame s t noReg noCell [.callStack] := by
  have hwrites : Frame s { s with stack := t.stack, sp := t.sp, pc := t.pc, result := t.result } noReg noCell
      [.callStack] :=
    ((Frame.refl s).writeCallStack (List.mem_singleton_self _) t.stack t.sp).commit t.pc t.result
  cases h <;> exact hwrites

theorem call_pc (h : StackStep s (.call nnn) t) : t.pc.toNat = nnn.toNat := by
  cases h
  exact addr12_addr_toNat nnn

theorem call_sp (h : StackStep s (.call nnn) t) : t.sp.val = s.sp.val + 1 := by
  cases h
  rfl

/-- The new top entry is the address of the next word (the spec's decision D26). -/
theorem call_top (h : StackStep s (.call nnn) t) (hlt : s.sp.val < 16) :
    (t.stack[s.sp.val]'hlt).toNat = (s.pc.toNat + 2) % 4096 := by
  cases h
  simp

theorem call_other (h : StackStep s (.call nnn) t) (hk : k.val ≠ s.sp.val) : t.stack[k] = s.stack[k] := by
  cases h with
  | call _ hlt => exact Vector.getElem_set_ne hlt k.isLt hk.symm

theorem ret_pc (h : StackStep s .ret t) (hk : s.sp.val = k.val + 1) : t.pc.toNat = s.stack[k].toNat % 4096 := by
  cases h with
  | ret j hj =>
    obtain rfl : j = k := Fin.ext (by omega)
    exact addr12_toNat _

theorem ret_sp (h : StackStep s .ret t) (hk : s.sp.val = k.val + 1) : t.sp.val = k.val := by
  cases h with
  | ret j hj => exact Nat.succ.inj (hj.symm.trans hk)

/-- No entry is cleared (the spec's decision D27). -/
theorem ret_stack (h : StackStep s .ret t) : t.stack = s.stack := by
  cases h
  rfl

end StackStep

end CallStack

end Sys2Proof.Machine

open Sys2Proof Sys2Proof.Machine

/-- Settles O31: the call leaves the return address at the depth it was made at, and the return takes it from there. -/
theorem callThenRetReturns : Obligations.CallThenRetReturns := by
  intro nnn s hlt
  obtain ⟨t, hcall, hst⟩ := exec_call_of_lt hlt nnn
  have hdepth : t.sp.val = (⟨s.sp.val, hlt⟩ : Fin 16).val + 1 := hst.call_sp
  obtain ⟨u, hret, htu⟩ := exec_ret_of_eq_succ hdepth
  have hpc : PcMoved s u 2 := by
    rw [PcMoved, htu.ret_pc hdepth, Fin.getElem_fin, hst.call_top hlt, Nat.mod_mod]
  refine ⟨t, u, hcall, hret, hpc, Fin.ext (htu.ret_sp hdepth), fun k hk => ?_, hst.frame.trans htu.frame⟩
  rw [htu.ret_stack]
  exact hst.call_other hk.ne

/-- Settles O26: SYS is the quiet commit at the next word. -/
theorem sysIsNoOp : Obligations.SysIsNoOp :=
  fun _ s => advance_moves_two s

/-- Settles O27: both jumps are quiet commits; an address field is below 4096 as it stands. -/
theorem jumpsSetPc : Obligations.JumpsSetPc := by
  intro nnn s
  constructor
  · obtain ⟨t, hnext, hpc, hrest⟩ := commit_quiet (addr12 nnn.toNat) s
    exact ⟨t, hnext, by rw [hpc, addr12_addr_toNat], hrest⟩
  · obtain ⟨t, hnext, hpc, hrest⟩ := commit_quiet (addr12 (nnn.toNat + (s.readV 0).toNat)) s
    exact ⟨t, hnext, by rw [hpc, addr12_toNat], hrest⟩

/-- Settles O28: the four forms are one skip with their own condition. -/
theorem skipsCompareRegisters : Obligations.SkipsCompareRegisters :=
  fun x y nn s =>
    ⟨skipIf_moves_four_or_two (s.readV x = nn) s,
      skipIf_moves_four_or_two (s.readV x ≠ nn) s,
      skipIf_moves_four_or_two (s.readV x = s.readV y) s,
      skipIf_moves_four_or_two (s.readV x ≠ s.readV y) s⟩

/-- Settles O29: with room CALL is a stack step, and a full stack is its one fault. -/
theorem callPushesReturnAddress : Obligations.CallPushesReturnAddress := by
  intro nnn s
  constructor
  · intro hlt
    obtain ⟨t, hnext, hst⟩ := exec_call_of_lt hlt nnn
    exact ⟨t, hnext, hst.call_pc, hst.returnedOk, hst.call_sp, hst.call_top hlt, fun _ hk => hst.call_other hk, hst.frame⟩
  · intro hfull
    exact (exec_eq_fault_iff _ s _).2 (.inl ⟨nnn, rfl, hfull, rfl⟩)

/-- Settles O30: with an entry RET is a stack step, and an empty stack is its one fault. -/
theorem retPopsReturnAddress : Obligations.RetPopsReturnAddress := by
  intro s
  constructor
  · intro k hk
    obtain ⟨t, hnext, hst⟩ := exec_ret_of_eq_succ hk
    exact ⟨t, hnext, hst.ret_pc hk, hst.returnedOk, hst.ret_sp hk, hst.ret_stack, hst.frame⟩
  · intro hempty
    exact (exec_eq_fault_iff _ s _).2 (.inr ⟨rfl, hempty, rfl⟩)

end

