-- ==== Sys2Proof/Proofs/Alu.lean ====
section
/-! PROOFS. Register arithmetic and logic (spec/42): what an arm that ends with `advance` leaves unchanged, the two shared
arms `setReg` and `setRegAndFlag` by what they write, the flags as numbers (R147 to R151), and the random byte (R152). -/

namespace Sys2Proof.Machine

/-! ### Frames of the register writes -/

section RegisterWrites

variable {s u : State} {x : Reg} {regs : Reg → Prop} {cells : Nat → Prop} {parts : List Part}

theorem Frame.writeV (h : Frame s u regs cells parts) (hx : regs x) (b : Byte) :
    Frame s (u.writeV x b) regs cells parts where
  regs y hy := by
    have hne : y ≠ x := fun e => hy (e ▸ hx)
    rw [State.readV_writeV, if_neg hne, h.regs y hy]
  cells := h.cells
  parts p hp := by
    have hsame := h.parts p hp
    cases p <;> exact hsame

theorem Frame.takeRnd (h : Frame s u regs cells parts) (hmem : Part.randomInput ∈ parts) :
    Frame s u.takeRnd regs cells parts where
  regs := h.regs
  cells := h.cells
  parts p hp := by
    have hsame := h.parts p hp
    cases p
    case randomInput => exact absurd hmem hp
    all_goals exact hsame

/-- An arm that ends with `advance` commits its own writes at the next word and adds none (spec/40 R101, R104). -/
theorem advance_keeps_frame (h : Frame s u regs cells parts) (hpc : u.pc = s.pc) :
    ∃ t, advance u = .next t ∧ (∀ y, t.readV y = u.readV y) ∧ PcMoved s t 2 ∧ ReturnedOk t ∧
      Frame s t regs cells parts := by
  refine ⟨_, rfl, fun _ => rfl, ?_, rfl, h.commit _ _⟩
  rw [PcMoved, ← hpc]
  exact u.pcNext_toNat

theorem setReg_writes (h : Frame s u (onlyReg x) cells parts) (hpc : u.pc = s.pc) (b : Byte) :
    ∃ t, setReg x b u = .next t ∧ t.readV x = b ∧ PcMoved s t 2 ∧ ReturnedOk t ∧
      Frame s t (onlyReg x) cells parts := by
  obtain ⟨t, hnext, hread, hrest⟩ := advance_keeps_frame (h.writeV rfl b) hpc
  exact ⟨t, hnext, by rw [hread, State.readV_writeV, if_pos rfl], hrest⟩

/-- The flag is written last, so VF ends with it even as the destination (spec/42 R140). -/
theorem setRegAndFlag_writes (x : Reg) (b flag : Byte) (s : State) :
    ∃ t, setRegAndFlag x b flag s = .next t ∧ (x ≠ regF → t.readV x = b) ∧ t.readV regF = flag ∧
      PcMoved s t 2 ∧ ReturnedOk t ∧ Frame s t (regAndVF x) noCell [] := by
  have hframe : Frame s (s.writeVWithFlag x b flag) (regAndVF x) noCell [] :=
    ((Frame.refl s).writeV (.inl rfl) b).writeV (.inr rfl) flag
  obtain ⟨t, hnext, hread, hrest⟩ := advance_keeps_frame hframe rfl
  refine ⟨t, hnext, fun hx => ?_, ?_, hrest⟩
  · rw [hread, State.readV_writeVWithFlag, if_neg hx, if_pos rfl]
  · rw [hread, State.readV_writeVWithFlag, if_pos rfl]

end RegisterWrites

/-! ### Flags (spec/42 R147 to R151) -/

theorem flagByte_decide (c : Prop) [Decidable c] : flagByte (decide c) = if c then 1 else 0 := by
  by_cases hc : c <;> simp [flagByte, hc]

theorem flagByte_toNat (b : Bool) : (flagByte b).toNat = b.toNat := by cases b <;> rfl

theorem rightShiftedOut_toNat (b : Byte) : (rightShiftedOut b).toNat = b.toNat % 2 := by
  rw [rightShiftedOut, flagByte_toNat, BitVec.getLsbD, Nat.toNat_testBit, pow_zero, Nat.div_one]

theorem leftShiftedOut_toNat (b : Byte) : (leftShiftedOut b).toNat = b.toNat / 128 := by
  rw [leftShiftedOut, flagByte_toNat, BitVec.getLsbD, Nat.toNat_testBit]
  have := b.isLt
  omega

/-! ### Values of the arithmetic forms -/

theorem byte_sub_toNat (a b : Byte) : (a - b).toNat = (a.toNat + 256 - b.toNat) % 256 := by
  rw [BitVec.toNat_sub]
  have := b.isLt
  omega

/-- SUB and SUBN are this one arm, with the registers' values as the operands in either order (spec/42 R148, R150). -/
theorem setRegAndFlag_difference (x : Reg) (a b : Byte) (s : State) :
    ∃ t, setRegAndFlag x (a - b) (notBorrowFlag a b) s = .next t ∧
      (x ≠ regF → (t.readV x).toNat = (a.toNat + 256 - b.toNat) % 256) ∧
      t.readV regF = (if b.toNat ≤ a.toNat then 1 else 0) ∧
      PcMoved s t 2 ∧ ReturnedOk t ∧ Frame s t (regAndVF x) noCell [] := by
  obtain ⟨t, hnext, hx, hflag, hrest⟩ := setRegAndFlag_writes x (a - b) (notBorrowFlag a b) s
  exact ⟨t, hnext, fun hne => by rw [hx hne, byte_sub_toNat], hflag.trans (flagByte_decide _), hrest⟩

end Sys2Proof.Machine

open Sys2Proof Sys2Proof.Machine

/-- Settles O32: both forms write VX and nothing else. -/
theorem immediateForms : Obligations.ImmediateForms := by
  intro x nn s
  refine ⟨setReg_writes (.refl s) rfl nn, ?_⟩
  obtain ⟨t, hnext, hx, hrest⟩ := setReg_writes (x := x) (.refl s) rfl (s.readV x + nn)
  exact ⟨t, hnext, by rw [hx, BitVec.toNat_add], hrest⟩

/-- Settles O33: all four forms write VX and nothing else, the logic forms a value read bit by bit. -/
theorem copyAndLogic : Obligations.CopyAndLogic := by
  intro x y s
  refine ⟨setReg_writes (.refl s) rfl (s.readV y), ?_, ?_, ?_⟩
  · obtain ⟨t, hnext, hx, hrest⟩ := setReg_writes (x := x) (.refl s) rfl (s.readV x ||| s.readV y)
    exact ⟨t, hnext, fun k => by rw [hx, BitVec.getLsbD_or], hrest⟩
  · obtain ⟨t, hnext, hx, hrest⟩ := setReg_writes (x := x) (.refl s) rfl (s.readV x &&& s.readV y)
    exact ⟨t, hnext, fun k => by rw [hx, BitVec.getLsbD_and], hrest⟩
  · obtain ⟨t, hnext, hx, hrest⟩ := setReg_writes (x := x) (.refl s) rfl (s.readV x ^^^ s.readV y)
    exact ⟨t, hnext, fun k => by rw [hx, BitVec.getLsbD_xor], hrest⟩

/-- Settles O34: the sum goes to VX, then the carry to VF. -/
theorem addSetsCarry : Obligations.AddSetsCarry := by
  intro x y s
  obtain ⟨t, hnext, hx, hflag, hrest⟩ :=
    setRegAndFlag_writes x (s.readV x + s.readV y) (carryFlag (s.readV x) (s.readV y)) s
  exact ⟨t, hnext, fun hne => by rw [hx hne, BitVec.toNat_add], hflag.trans (flagByte_decide _), hrest⟩

/-- Settles O35: SUBN is SUB with the operands exchanged. -/
theorem subtractSetsNotBorrow : Obligations.SubtractSetsNotBorrow :=
  fun x y s =>
    ⟨setRegAndFlag_difference x (s.readV x) (s.readV y) s, setRegAndFlag_difference x (s.readV y) (s.readV x) s⟩

/-- Settles O36: the operand is the source either SHIFT_SRC names; both shifts are then arithmetic on its value. -/
theorem shiftsSetBitShiftedOut : Obligations.ShiftsSetBitShiftedOut := by
  intro x y s src hsrc
  have hop : (s.shiftOperand x y).toNat = src := by
    rw [hsrc, State.shiftOperand]
    cases s.shiftSrc <;> rfl
  constructor
  · obtain ⟨t, hnext, hx, hflag, hrest⟩ :=
      setRegAndFlag_writes x (s.shiftOperand x y >>> 1) (rightShiftedOut (s.shiftOperand x y)) s
    refine ⟨t, hnext, fun hne => ?_, by rw [hflag, rightShiftedOut_toNat, hop], hrest⟩
    rw [hx hne, BitVec.toNat_ushiftRight, hop, Nat.shiftRight_eq_div_pow, pow_one]
  · obtain ⟨t, hnext, hx, hflag, hrest⟩ :=
      setRegAndFlag_writes x (s.shiftOperand x y <<< 1) (leftShiftedOut (s.shiftOperand x y)) s
    refine ⟨t, hnext, fun hne => ?_, by rw [hflag, leftShiftedOut_toNat, hop], hrest⟩
    rw [hx hne, BitVec.toNat_shiftLeft, hop, Nat.shiftLeft_eq, pow_one]

/-- Settles O37: the byte is the step's own random input, used up before VX is written. -/
theorem randomByteIsMasked : Obligations.RandomByteIsMasked := by
  intro x nn s
  have hframe : Frame s s.takeRnd (onlyReg x) noCell [.randomInput] :=
    (Frame.refl s).takeRnd (List.mem_singleton_self _)
  obtain ⟨t, hnext, hrest⟩ := setReg_writes hframe rfl (s.rnd &&& nn)
  exact ⟨s.rnd, t, hnext, fun _ hq => State.rnd_of_rndIn hq, hrest⟩

end

