-- ==== Sys2Proof/Proofs/IndexMemory.lean ====
section
/-! PROOFS. The index register and the memory transfers (spec/43): what a write to I, a run of stored bytes and a load of
registers leave unchanged, the three arms made of them, the glyph address (R172) and the decimal digits (R174), and the
load that reads a dump back (R175, R176). -/

namespace Sys2Proof.Machine

/-! ### Frames of the index and memory writes -/

section Frames

variable {s u : State} {regs : Reg → Prop} {cells : Nat → Prop} {parts : List Part}

theorem Frame.writeI (h : Frame s u regs cells parts) (hmem : Part.index ∈ parts) (a : Nat) :
    Frame s (u.writeI a) regs cells parts where
  regs := h.regs
  cells := h.cells
  parts p hp := by
    have hsame := h.parts p hp
    cases p
    case index => exact absurd hmem hp
    all_goals exact hsame

theorem Frame.store {a : Nat} {bs : List Byte} (h : Frame s u regs cells parts)
    (hcells : ∀ k, k < bs.length → cells ((a + k) % 4096)) : Frame s (u.store a bs) regs cells parts where
  regs := h.regs
  cells c hc := by
    have houtside : ∀ k, k < bs.length → c % 4096 ≠ (a + k) % 4096 := fun k hk e => hc (e ▸ hcells k hk)
    rw [State.readMem_store, Memory.readByte_writeBytes_outside bs u.mem a c houtside]
    exact h.cells c hc
  parts p hp := by
    have hsame := h.parts p hp
    cases p <;> exact hsame

theorem Frame.loadRegs {x : Reg} (h : Frame s u regs cells parts) (hregs : ∀ y, y ≤ x → regs y) (a : Nat) :
    Frame s (u.loadRegs x a) regs cells parts where
  regs y hy := by
    have habove : ¬ y ≤ x := fun hle => hy (hregs y hle)
    rw [State.readV_loadRegs, if_neg habove, h.regs y hy]
  cells := h.cells
  parts p hp := by
    have hsame := h.parts p hp
    cases p <;> exact hsame

end Frames

/-! ### The arms (spec/43 R170 to R176) -/

/-- The commit of an arm keeps the index register and memory as the arm left them. -/
theorem advance_keeps_i_mem {u t : State} (h : advance u = .next t) : t.i = u.i ∧ t.mem = u.mem := by
  rw [advance_eq_commit, commit_eq_next] at h
  rw [h]
  exact ⟨rfl, rfl⟩

/-- LD I, ADD I and LD F are this one arm, with their own address (spec/43 R170 to R172). -/
theorem advance_writeI (a : Nat) (s : State) :
    ∃ t, advance (s.writeI a) = .next t ∧ t.i.toNat = a % 4096 ∧ PcMoved s t 2 ∧ ReturnedOk t ∧
      Frame s t noReg noCell [.index] := by
  have hframe : Frame s (s.writeI a) noReg noCell [.index] := (Frame.refl s).writeI (List.mem_singleton_self _) a
  obtain ⟨t, hnext, -, hrest⟩ := advance_keeps_frame hframe rfl
  obtain ⟨hi, -⟩ := advance_keeps_i_mem hnext
  exact ⟨t, hnext, by rw [hi, State.writeI_i, addr12_toNat], hrest⟩

/-- LD B and the dump are this one arm, with their own bytes (spec/43 R174, R175). -/
theorem advance_store (a : Nat) {bs : List Byte} (hlen : bs.length ≤ 4096) (s : State) :
    ∃ t, advance (s.store a bs) = .next t ∧ (∀ k, k < bs.length → t.readMem (a + k) = bs.getD k 0) ∧
      PcMoved s t 2 ∧ ReturnedOk t ∧ Frame s t noReg (cellsFrom a bs.length) [] := by
  have hframe : Frame s (s.store a bs) noReg (cellsFrom a bs.length) [] :=
    (Frame.refl s).store fun k hk => ⟨k, hk, rfl⟩
  obtain ⟨t, hnext, -, hrest⟩ := advance_keeps_frame hframe rfl
  obtain ⟨-, hmem⟩ := advance_keeps_i_mem hnext
  refine ⟨t, hnext, fun k hk => ?_, hrest⟩
  rw [State.readMem, hmem]
  exact Memory.readByte_writeBytes_inside bs s.mem a k hlen hk

/-! ### Operands (spec/43 R172, R174) -/

theorem glyphAddress_lowNibble (b : Byte) : glyphAddress (lowNibble b) = 0x050 + 5 * (b.toNat % 16) := by
  rw [glyphAddress, lowNibble_val, fontBase]

/-- Every glyph lies below 0x1000, so I holds its address as it stands. -/
theorem glyphAddress_lt (d : Reg) : glyphAddress d < 4096 := by
  have := d.isLt
  rw [glyphAddress, fontBase]
  omega

/-- A decimal digit of a byte fits a cell. -/
theorem toNat_bcdDigits (b : Byte) :
    ((bcdDigits b).getD 0 0).toNat = b.toNat / 100 ∧
    ((bcdDigits b).getD 1 0).toNat = b.toNat / 10 % 10 ∧
    ((bcdDigits b).getD 2 0).toNat = b.toNat % 10 := by
  have := b.isLt
  simp only [bcdDigits, List.getD_cons_zero, List.getD_cons_succ, BitVec.toNat_ofNat]
  omega

end Sys2Proof.Machine

open Sys2Proof Sys2Proof.Machine

/-- Settles O40: the three digits are a stored run, each read back at its own place. -/
theorem bcdStoresThreeDigits : Obligations.BcdStoresThreeDigits := by
  intro x s
  obtain ⟨t, hnext, hread, hrest⟩ := advance_store s.i.toNat (bs := bcdDigits (s.readV x)) (by simp) s
  obtain ⟨hhundreds, htens, hones⟩ := toNat_bcdDigits (s.readV x)
  refine ⟨t, hnext, ?_, ?_, ?_, hrest⟩
  · exact (congrArg _ (hread 0 (by simp))).trans hhundreds
  · exact (congrArg _ (hread 1 (by simp))).trans htens
  · exact (congrArg _ (hread 2 (by simp))).trans hones

/-- Settles O41: the dumped registers are a stored run, its `k`-th byte Vk. -/
theorem dumpStoresRegisters : Obligations.DumpStoresRegisters := by
  intro x s
  have hlen := s.length_regsUpTo x
  obtain ⟨t, hnext, hread, hrest⟩ := advance_store s.i.toNat (bs := s.regsUpTo x) (by omega) s
  rw [hlen] at hread hrest
  exact ⟨t, hnext, fun k hk => (hread k.val (Nat.lt_succ_of_le hk)).trans (s.getD_regsUpTo x k hk), hrest⟩

/-- Settles O42: the load takes each register up to VX from its cell, and keeps those above. -/
theorem loadReadsRegisters : Obligations.LoadReadsRegisters := by
  intro x s
  have hframe : Frame s (s.loadRegs x s.i.toNat) (fun y => y ≤ x) noCell [] :=
    (Frame.refl s).loadRegs (fun _ hy => hy) s.i.toNat
  obtain ⟨t, hnext, hread, hrest⟩ := advance_keeps_frame hframe rfl
  exact ⟨t, hnext, fun k hk => by rw [hread, State.readV_loadRegs, if_pos hk], hrest⟩

/-- Settles O43: the dump keeps I, so the load reads the cells the dump wrote. -/
theorem dumpThenLoadRestores : Obligations.DumpThenLoadRestores := by
  intro x s t u hdump hi hmem
  obtain ⟨t', hnext, hstored, -, -, hframe⟩ := dumpStoresRegisters x s
  obtain rfl := Host.Outcome.next.inj (hnext.symm.trans hdump)
  obtain ⟨w, hload, hread, -⟩ := loadReadsRegisters x u
  have hindex : t'.i = s.i := hframe.parts .index List.not_mem_nil
  refine ⟨w, hload, fun k hk => ?_⟩
  rw [hread k hk, State.readMem, hmem, hi, hindex]
  exact hstored k hk

/-- Settles O38: both forms write I and nothing else; an address field is below 4096 as it stands. -/
theorem indexForms : Obligations.IndexForms := by
  refine ⟨fun nnn s => ?_, fun x s => advance_writeI (s.i.toNat + (s.readV x).toNat) s⟩
  obtain ⟨t, hnext, hi, hrest⟩ := advance_writeI nnn.toNat s
  exact ⟨t, hnext, by rw [hi, Nat.mod_eq_of_lt nnn.isLt], hrest⟩

/-- Settles O39: I is written with the glyph's address, which does not wrap. -/
theorem glyphAddressInIndex : Obligations.GlyphAddressInIndex := by
  intro x s
  obtain ⟨t, hnext, hi, hrest⟩ := advance_writeI (glyphAddress (lowNibble (s.readV x))) s
  exact ⟨t, hnext, by rw [hi, Nat.mod_eq_of_lt (glyphAddress_lt _), glyphAddress_lowNibble], hrest⟩

end

