-- ==== Sys2Proof/Proofs/Display.lean ====
section
/-! PROOFS. The display (spec/44): a sprite's draw by the pixels it hits (R191, R192), CLS and DRW as dirty commits (R190,
R196), the flag of a second draw (R193), and the signal of every step that changes the framebuffer (R195). -/

namespace Sys2Proof.Machine

/-! ### The draw of a sprite (spec/44 R191, R192) -/

section Draw

variable {s t : State} {x y : Reg} {n : Nibble} {px : Fin 64} {py : Fin 32}

/-- The spec's description of a hit is that of the model's rows. -/
theorem spriteHits_iff_rowsHit : SpriteHits s x y n px py ↔
    RowsHit s.mem s.i.toNat (spriteColumn (s.readV x)) (spriteRow (s.readV y)) n.toNat px py :=
  ⟨fun ⟨r, c, hr, hc, hrest⟩ => ⟨r, hr, c, hc, hrest⟩, fun ⟨r, hr, c, hc, hrest⟩ => ⟨r, c, hr, hc, hrest⟩⟩

theorem drawSprite_pixel_of_hits (h : SpriteHits s x y n px py) :
    (s.drawSprite x y n).1.pixel px py = !s.fb.pixel px py :=
  (drawRows_pixel _ _ _ _ _ (Nat.le_of_lt_succ n.isLt) (s.fb, false) px py).1 (spriteHits_iff_rowsHit.1 h)

theorem drawSprite_pixel_of_not_hits (h : ¬ SpriteHits s x y n px py) :
    (s.drawSprite x y n).1.pixel px py = s.fb.pixel px py :=
  (drawRows_pixel _ _ _ _ _ (Nat.le_of_lt_succ n.isLt) (s.fb, false) px py).2 (mt spriteHits_iff_rowsHit.2 h)

theorem drawSprite_collision_iff :
    (s.drawSprite x y n).2 = true ↔ ∃ px py, SpriteHits s x y n px py ∧ s.fb.pixel px py = true := by
  simp only [State.drawSprite, drawRows_collision _ _ _ _ _ (Nat.le_of_lt_succ n.isLt), spriteHits_iff_rowsHit,
    Bool.false_eq_true, false_or]

/-- The pixels a sprite hits are read off memory, I and the coordinate registers, which a draw keeps unless one of them is
VF. -/
theorem spriteHits_iff_of_frame (h : Frame s t (onlyReg regF) noCell [.framebuffer]) (hx : x ≠ regF) (hy : y ≠ regF) :
    SpriteHits t x y n px py ↔ SpriteHits s x y n px py := by
  have hi : t.i = s.i := h.parts .index (by decide)
  have hmem : ∀ a, t.readMem a = s.readMem a := fun a => h.cells a id
  simp only [SpriteHits, hi, hmem, h.regs x hx, h.regs y hy]

end Draw

/-! ### Dirty commits (spec/44 R190, R196) -/

section DirtyCommit

variable {s u : State} {regs : Reg → Prop} {cells : Nat → Prop} {parts : List Part}

theorem Frame.writeFB (h : Frame s u regs cells parts) (hmem : Part.framebuffer ∈ parts) (fb : FrameBuffer) :
    Frame s (u.writeFB fb) regs cells parts where
  regs := h.regs
  cells := h.cells
  parts p hp := by
    have hsame := h.parts p hp
    cases p
    case framebuffer => exact absurd hmem hp
    all_goals exact hsame

/-- CLS and DRW commit their own writes at the next word and signal screen_dirty. -/
theorem commit_dirty_keeps_frame (h : Frame s u regs cells parts) :
    ∃ t, commit Signals.dirty s.pcNext u = .next t ∧ t.fb = u.fb ∧ (∀ z, t.readV z = u.readV z) ∧
      PcMoved s t 2 ∧ ReturnedDirty t ∧ Frame s t regs cells parts :=
  ⟨_, rfl, rfl, fun _ => rfl, s.pcNext_toNat, rfl, h.commit _ _⟩

/-- DRW leaves the drawn framebuffer, and in VF the collision flag. -/
theorem execDrw_writes (x y : Reg) (n : Nibble) (s : State) :
    ∃ t, execDrw x y n s = .next t ∧ t.fb = (s.drawSprite x y n).1 ∧ t.readV regF = flagByte (s.drawSprite x y n).2 ∧
      PcMoved s t 2 ∧ ReturnedDirty t ∧ Frame s t (onlyReg regF) noCell [.framebuffer] := by
  have hframe : Frame s ((s.writeFB (s.drawSprite x y n).1).writeV regF (flagByte (s.drawSprite x y n).2))
      (onlyReg regF) noCell [.framebuffer] :=
    ((Frame.refl s).writeFB (List.mem_singleton_self _) _).writeV (regs := onlyReg regF) rfl _
  obtain ⟨t, hnext, hfb, hread, hrest⟩ := commit_dirty_keeps_frame hframe
  exact ⟨t, hnext, hfb, by rw [hread, State.readV_writeV, if_pos rfl], hrest⟩

end DirtyCommit

/-! ### Steps and the framebuffer (spec/44 R195) -/

section FramebufferOfStep

variable {s t u : State}

theorem commit_keeps_fb {sig : Signals} {a : Word} (h : commit sig a u = .next t) (hfb : u.fb = s.fb) :
    t.fb = s.fb := by
  obtain rfl := (commit_eq_next sig a u t).1 h
  exact hfb

theorem block_keeps_fb (h : block u = .next t) (hfb : u.fb = s.fb) : t.fb = s.fb := by
  obtain rfl := (block_eq_next u t).1 h
  exact hfb

theorem commit_result {sig : Signals} {a : Word} (h : commit sig a u = .next t) : t.result = .ok sig := by
  obtain rfl := (commit_eq_next sig a u t).1 h
  rfl

theorem keyWaitPoll_keeps_fb (h : keyWaitPoll s = .next t) : t.fb = s.fb := by
  unfold keyWaitPoll at h
  split at h
  next => exact block_keeps_fb h rfl
  next => exact commit_keeps_fb h rfl

/-- Only CLS and DRW write the framebuffer, and both signal it. -/
theorem exec_keeps_fb_or_signals {i : Instr} (h : exec i s = .next t) :
    t.fb = s.fb ∨ t.result = .ok Signals.dirty := by
  cases i
  case cls | drw => exact .inr (commit_result h)
  case call => exact .inl ((StackStep.of_execCall h).frame.parts .framebuffer (by decide))
  case ret => exact .inl ((StackStep.of_execRet h).frame.parts .framebuffer (by decide))
  case ldVxK => exact .inl (block_keeps_fb h rfl)
  all_goals exact .inl (commit_keeps_fb h rfl)

theorem step_keeps_fb_or_signals (h : step s = .next t) : t.fb = s.fb ∨ t.result = .ok Signals.dirty := by
  obtain ⟨-, hpoll⟩ | ⟨-, i, -, hi⟩ := step_cases h
  · exact .inl (keyWaitPoll_keeps_fb hpoll)
  · exact exec_keeps_fb_or_signals hi

end FramebufferOfStep

/-- The glyph row 0x80 at 0x09F, a sprite of one pixel, is about to be drawn on the one lit pixel. -/
def litUnderSprite : State := { State.reset with i := 0x09F, fb := State.reset.fb.setPixel 0 0 true }

end Sys2Proof.Machine

open Sys2Proof Sys2Proof.Machine

/-- Settles O21: a step keeps the framebuffer or signals it. -/
theorem unsignalledStepKeepsFramebuffer : Obligations.UnsignalledStepKeepsFramebuffer :=
  fun _ _ h hne => ⟨_, (step_keeps_fb_or_signals h).resolve_left hne⟩

/-- Settles O45: the framebuffer and the flag are those of the drawn sprite, read pixel by pixel. -/
theorem spriteDrawInvertsHitPixels : Obligations.SpriteDrawInvertsHitPixels := by
  intro x y n s
  obtain ⟨t, hnext, hfb, hflag, hrest⟩ := execDrw_writes x y n s
  refine ⟨t, hnext, fun px py hhit => ?_, fun px py hmiss => ?_, fun hlit => ?_, fun hunlit => ?_, hrest⟩
  · rw [hfb, drawSprite_pixel_of_hits hhit]
  · rw [hfb, drawSprite_pixel_of_not_hits hmiss]
  · rw [hflag, drawSprite_collision_iff.2 hlit]
    rfl
  · have hnone : ¬ (s.drawSprite x y n).2 = true := fun hcol => by
      obtain ⟨px, py, hhit, hlit⟩ := drawSprite_collision_iff.1 hcol
      exact Bool.false_ne_true ((hunlit px py hhit).symm.trans hlit)
    rw [hflag, Bool.eq_false_of_not_eq_true hnone]
    rfl

/-- Settles O46: the second draw hits the same pixels, each inverted by the first. -/
theorem secondDrawRestores : Obligations.SecondDrawRestores := by
  intro x y n s hx hy
  obtain ⟨t, hdraw, hinv, hkeep, -, -, -, -, hframe⟩ := spriteDrawInvertsHitPixels x y n s
  obtain ⟨u, hdraw', hinv', hkeep', hone, hzero, -⟩ := spriteDrawInvertsHitPixels x y n t
  simp only [spriteHits_iff_of_frame hframe hx hy] at hinv' hkeep' hone hzero
  refine ⟨t, u, hdraw, hdraw', FrameBuffer.ext_pixel _ _ fun px py => ?_, ?_, fun hlit => hzero fun px py hhit => ?_⟩
  · by_cases hhit : SpriteHits s x y n px py
    · rw [hinv' px py hhit, hinv px py hhit, Bool.not_not]
    · rw [hkeep' px py hhit, hkeep px py hhit]
  · rintro ⟨px, py, hhit, hunlit⟩
    exact hone ⟨px, py, hhit, by rw [hinv px py hhit, hunlit, Bool.not_false]⟩
  · rw [hinv px py hhit, hlit px py hhit, Bool.not_true]

/-- Refutes O47: the one pixel of the sprite is lit, so the first draw unlights it and the second only lights it. -/
theorem not_secondDrawFlagAsWritten : ¬ Obligations.SecondDrawFlagAsWritten := by
  intro h
  have hhit : SpriteHits litUnderSprite 0 0 1 0 0 :=
    ⟨0, 0, by decide, by decide, by decide, by decide, by decide⟩
  have hone := h 0 0 1 litUnderSprite _ _ (by decide) (by decide) rfl rfl ⟨0, 0, hhit⟩
  exact absurd hone (by decide)

/-- Settles O44: the blank framebuffer is the one write of CLS. -/
theorem clearScreenUnlightsAll : Obligations.ClearScreenUnlightsAll := by
  intro s
  have hframe : Frame s (s.writeFB FrameBuffer.blank) noReg noCell [.framebuffer] :=
    (Frame.refl s).writeFB (List.mem_singleton_self _) _
  obtain ⟨t, hnext, hfb, -, hrest⟩ := commit_dirty_keeps_frame hframe
  exact ⟨t, hnext, fun px py => by rw [hfb, State.writeFB, FrameBuffer.pixel_blank], hrest⟩

end

