-- ==== Sys2Proof/Proofs/KeypadTimers.lean ====
section
/-! PROOFS. The keypad and the timers (spec/45): what a write to a part beside V and memory leaves unchanged, the entry
into a key wait and its polls (R211, R212), the key skips (R217, R218), and the timer forms with the sound edge (R213 to
R215). -/

namespace Sys2Proof.Machine

/-! ### Frames of the writes to the timers and the wait -/

section PartWrites

variable {s u w : State} {regs : Reg → Prop} {cells : Nat → Prop} {parts : List Part}

/-- A write to one listed part alone stays in the frame. -/
theorem Frame.writePart {q : Part} (h : Frame s u regs cells parts) (hq : q ∈ parts) (hv : w.v = u.v)
    (hmem : w.mem = u.mem) (hsame : ∀ p, p ≠ q → p.same u w) : Frame s w regs cells parts where
  regs y hy := by
    rw [State.readV, hv]
    exact h.regs y hy
  cells a ha := by
    rw [State.readMem, hmem]
    exact h.cells a ha
  parts p hp := Part.same_trans (h.parts p hp) (hsame p fun e => hp (e ▸ hq))

theorem Frame.writeDT (h : Frame s u regs cells parts) (hmem : Part.delayTimer ∈ parts) (b : Byte) :
    Frame s (u.writeDT b) regs cells parts :=
  h.writePart hmem rfl rfl fun p hp => by cases p <;> simp [Part.same] at hp ⊢

theorem Frame.writeST (h : Frame s u regs cells parts) (hmem : Part.soundTimer ∈ parts) (b : Byte) :
    Frame s (u.writeST b) regs cells parts :=
  h.writePart hmem rfl rfl fun p hp => by cases p <;> simp [Part.same] at hp ⊢

theorem Frame.writeWait (h : Frame s u regs cells parts) (hmem : Part.keyWait ∈ parts) (active : Bool) (r : Reg)
    (prev : Word) : Frame s (u.writeWait active r prev) regs cells parts :=
  h.writePart hmem rfl rfl fun p hp => by cases p <;> simp [Part.same] at hp ⊢

end PartWrites

/-! ### The key wait (spec/45 R211, R212) -/

/-- The entry into a wait and a poll that finds no new key are this one arm: it samples the keypad and blocks. -/
theorem block_writeWait_keys (active : Bool) (r : Reg) (s : State) :
    ∃ t, block (s.writeWait active r s.keys) = .next t ∧ t.waitActive = active ∧ t.waitReg = r ∧
      t.waitPrev = s.keys ∧ t.pc = s.pc ∧ t.result = .blocked ∧ Frame s t noReg noCell [.keyWait] := by
  have hframe : Frame s (s.writeWait active r s.keys) noReg noCell [.keyWait] :=
    (Frame.refl s).writeWait (List.mem_singleton_self _) active r s.keys
  exact ⟨_, rfl, rfl, rfl, rfl, rfl, rfl, hframe.commit s.pc .blocked⟩

/-- The key a poll takes is newly pressed, and every smaller key that is pressed was pressed at the last sample. -/
theorem leastKey_newKeys_eq_some_iff (s : State) (k : Reg) : leastKey s.newKeys = some k ↔
    (s.keys.getLsbD k.val = true ∧ s.waitPrev.getLsbD k.val = false) ∧
      ∀ j : Reg, j < k → s.keys.getLsbD j.val = true → s.waitPrev.getLsbD j.val = true := by
  simp only [leastKey_eq_some, State.newKeys_bit, Bool.and_eq_true, Bool.not_eq_true', Bool.and_eq_false_imp,
    Bool.not_eq_false']

/-- A poll that finds a new key gives the least one to the waiting register and ends the wait. -/
theorem keyWaitPoll_completes {s : State} {k : Reg} (h : leastKey s.newKeys = some k) :
    ∃ t, keyWaitPoll s = .next t ∧ t.waitActive = false ∧ t.waitReg = s.waitReg ∧ t.waitPrev = s.waitPrev ∧
      (t.readV s.waitReg).toNat = k.val ∧ PcMoved s t 2 ∧ ReturnedOk t ∧
      Frame s t (onlyReg s.waitReg) noCell [.keyWait] := by
  have hframe : Frame s ((s.writeV s.waitReg (BitVec.ofNat 8 k.val)).writeWait false s.waitReg s.waitPrev)
      (onlyReg s.waitReg) noCell [.keyWait] :=
    ((Frame.refl s).writeV (regs := onlyReg s.waitReg) rfl _).writeWait (List.mem_singleton_self _) _ _ _
  have hread : (s.writeV s.waitReg (BitVec.ofNat 8 k.val)).readV s.waitReg = BitVec.ofNat 8 k.val := by
    rw [State.readV_writeV, if_pos rfl]
  have hkey : (BitVec.ofNat 8 k.val).toNat = k.val := Nat.mod_eq_of_lt (k.isLt.trans (by decide))
  rw [keyWaitPoll_of_some h]
  exact ⟨_, rfl, rfl, rfl, rfl, (congrArg BitVec.toNat hread).trans hkey, s.pcNext_toNat, rfl, hframe.commit _ _⟩

/-! ### The key skips (spec/45 R210, R217, R218) -/

theorem State.key_lowNibble (s : State) (b : Byte) : s.key (lowNibble b) = s.keys.getLsbD (b.toNat % 16) := by
  rw [State.key, lowNibble_val]

theorem exec_skp_eq_skipIf (x : Reg) (s : State) :
    exec (.skp x) s = skipIf (decide (s.keys.getLsbD ((s.readV x).toNat % 16) = true)) s := by
  rw [exec, execSkp, State.key_lowNibble, Bool.decide_eq_true]

theorem exec_sknp_eq_skipIf (x : Reg) (s : State) :
    exec (.sknp x) s = skipIf (decide (¬ s.keys.getLsbD ((s.readV x).toNat % 16) = true)) s := by
  rw [exec, execSknp, State.key_lowNibble, decide_not, Bool.decide_eq_true]

/-! ### The sound edge of a write to `ST` (spec/45 R215) -/

section SoundEdge

variable {old new : Byte}

theorem soundEdge_of_starts (hold : old = 0) (hnew : new ≠ 0) : soundEdge old new = .on := if_pos ⟨hold, hnew⟩

theorem soundEdge_of_ends (hold : old ≠ 0) (hnew : new = 0) : soundEdge old new = .off :=
  (if_neg fun h => hold h.1).trans (if_pos ⟨hold, hnew⟩)

theorem soundEdge_of_zero_iff (h : old = 0 ↔ new = 0) : soundEdge old new = .none :=
  (if_neg fun hon => hon.2 (h.1 hon.1)).trans (if_neg fun hoff => hoff.1 (h.2 hoff.2))

end SoundEdge

end Sys2Proof.Machine

open Sys2Proof Sys2Proof.Machine

/-- Settles O50: a poll samples the keypad where no key is new, and else takes the least new one. -/
theorem keyWaitPolls : Obligations.KeyWaitPolls := by
  intro s hw
  rw [step_waiting hw]
  constructor
  · intro hnone
    rw [keyWaitPoll_of_none ((leastKey_newKeys_eq_none_iff s).2 hnone), hw]
    exact block_writeWait_keys true s.waitReg s
  · intro k hpressed hprev hleast
    exact keyWaitPoll_completes ((leastKey_newKeys_eq_some_iff s k).2 ⟨⟨hpressed, hprev⟩, hleast⟩)

/-- Settles O48: both forms are one skip, on the key and on its negation. -/
theorem skipsOnKeys : Obligations.SkipsOnKeys := by
  intro x s
  constructor
  · rw [exec_skp_eq_skipIf]
    exact skipIf_moves_four_or_two _ s
  · rw [exec_sknp_eq_skipIf, ← ite_not]
    exact skipIf_moves_four_or_two _ s

/-- Settles O49: the entry writes the wait sub-state, with the keypad as its snapshot, and blocks. -/
theorem keyWaitBegins : Obligations.KeyWaitBegins :=
  fun x s => block_writeWait_keys true x s

/-- Settles O52: the read is a register write, and the write is one to the delay timer alone. -/
theorem delayTimerForms : Obligations.DelayTimerForms := by
  intro x s
  have hframe : Frame s (s.writeDT (s.readV x)) noReg noCell [.delayTimer] :=
    (Frame.refl s).writeDT (List.mem_singleton_self _) _
  exact ⟨setReg_writes (.refl s) rfl s.dt, _, rfl, rfl, s.pcNext_toNat, rfl, hframe.commit _ _⟩

/-- Settles O53: the edge is that of the old and the new timer value, by which of them are zero. -/
theorem soundTimerForm : Obligations.SoundTimerForm := by
  intro x s
  have hframe : Frame s (s.writeST (s.readV x)) noReg noCell [.soundTimer] :=
    (Frame.refl s).writeST (List.mem_singleton_self _) _
  refine ⟨_, soundEdge s.st (s.readV x), rfl, rfl, rfl, soundEdge_of_starts, soundEdge_of_ends,
    fun hold hnew => ?_, fun hold hnew => ?_, s.pcNext_toNat, hframe.commit _ _⟩
  · exact soundEdge_of_zero_iff (iff_of_true hold hnew)
  · exact soundEdge_of_zero_iff (iff_of_false hold hnew)

end

