-- ==== Sys2Proof/Proofs/HostOps.lean ====
section
/-! PROOFS. Faults and the host's operations (spec/60): an illegal word (R231), the faults of an executed instruction
(R232, R233), skip (R236), ticks one by one and in a row (R240 to R243), a key write (R246), and fb_read with its packed
view (R247). -/

namespace Sys2Proof.Machine

/-! ### The word a fault of RET reports (spec/60 R233) -/

theorem encode_ret : encode .ret = 0x00EE := rfl

/-! ### Ticks (spec/60 R240 to R243) -/

theorem countDown_toNat (b : Byte) : (countDown b).toNat = b.toNat - 1 := by
  unfold countDown
  split
  case isTrue h => rw [h]; rfl
  case isFalse h =>
    have hpos : 1 ≤ b.toNat := Nat.one_le_iff_ne_zero.2 fun h0 => h (BitVec.eq_of_toNat_eq h0)
    exact BitVec.toNat_sub_of_le (BitVec.le_def.2 hpos)

theorem tick_edge_eq_ite (s : State) : (tick s).2 = if s.st.toNat = 1 then .off else .none :=
  if_congr BitVec.toNat_eq rfl rfl

theorem tick_edge_eq_off_iff (s : State) : (tick s).2 = .off ↔ s.st.toNat = 1 := by
  simp [tick_edge_eq_ite]

/-- Each tick of a row takes one more from both timers. -/
theorem tickTimes_toNat (k : Nat) (s : State) :
    (tickTimes k s).dt.toNat = s.dt.toNat - k ∧ (tickTimes k s).st.toNat = s.st.toNat - k := by
  induction k with
  | zero => exact ⟨rfl, rfl⟩
  | succ k ih =>
    obtain ⟨hdt, hst⟩ := ih
    constructor
    · exact (countDown_toNat _).trans (congrArg (· - 1) hdt)
    · exact (countDown_toNat _).trans (congrArg (· - 1) hst)

/-! ### Key writes (spec/60 R246) -/

/-- A key written reads back as the value, and every other key as before. -/
theorem keyWrite_getLsbD (k j : Reg) (pressed : Bool) (s : State) :
    (keyWrite k pressed s).keys.getLsbD j.val = if j = k then pressed else s.keys.getLsbD j.val := by
  by_cases h : j = k
  · subst h
    cases pressed <;> simp [keyWrite]
  · have hne : j.val ≠ k.val := Fin.val_ne_of_ne h
    cases pressed <;> simp [keyWrite, h, hne]

/-! ### The packed view of the framebuffer (spec/60 R247) -/

theorem fbPacked_length (fb : FrameBuffer) : (fbPacked fb).length = 256 := by
  rw [fbPacked, List.length_map, List.length_finRange]

theorem fbPacked_getD (fb : FrameBuffer) (k : Fin 256) : (fbPacked fb).getD k.val 0 = fbPackedByte fb k := by
  simp [fbPacked]

theorem fbPackedByte_getLsbD (fb : FrameBuffer) (k : Fin 256) (j : Fin 8) : (fbPackedByte fb k).getLsbD j.val =
    fb.pixel (Fin.ofNat 64 (8 * (k.val % 8) + (7 - j.val))) (Fin.ofNat 32 (k.val / 8)) := by
  rw [fbPackedByte, BitVec.getLsbD_ofFnLE, dif_pos j.isLt]

/-- The byte and the bit of a pixel lead back to its column and its row. -/
theorem fbPacked_pixel (fb : FrameBuffer) (px : Fin 64) (py : Fin 32) :
    ((fbPacked fb).getD (8 * py.val + px.val / 8) 0).getLsbD (7 - px.val % 8) = fb.pixel px py := by
  have hk : 8 * py.val + px.val / 8 < 256 := by omega
  have hj : 7 - px.val % 8 < 8 := by omega
  have hcol : Fin.ofNat 64 (8 * ((8 * py.val + px.val / 8) % 8) + (7 - (7 - px.val % 8))) = px :=
    Fin.ext (show _ % 64 = px.val by omega)
  have hrow : Fin.ofNat 32 ((8 * py.val + px.val / 8) / 8) = py := Fin.ext (show _ % 32 = py.val by omega)
  rw [fbPacked_getD fb ⟨_, hk⟩, fbPackedByte_getLsbD fb ⟨_, hk⟩ ⟨_, hj⟩, hcol, hrow]

end Sys2Proof.Machine

open Sys2Proof Sys2Proof.Machine

/-- Settles O10: the faults of `exec_eq_fault_iff`, where the word of RET is 0x00EE. -/
theorem executionFaultsExactly : Obligations.ExecutionFaultsExactly := by
  intro i s f
  rw [← encode_ret]
  exact exec_eq_fault_iff i s f

/-- Settles O55: by induction on the ticks, and the next one reports off where they left the sound timer at 1. -/
theorem repeatedTicksFloorAtZero : Obligations.RepeatedTicksFloorAtZero := by
  intro k s
  obtain ⟨hdt, hst⟩ := tickTimes_toNat k s
  refine ⟨hdt, hst, ?_⟩
  rw [tick_edge_eq_off_iff, hst]
  omega

/-- Settles O57: the packed view is read byte by byte and bit by bit. -/
theorem framebufferRead : Obligations.FramebufferRead :=
  fun s => ⟨rfl, fbPacked_length s.fb, fbPacked_pixel s.fb⟩

/-- Settles O6: the step faults on the word with any random byte, and the report is that fault's. -/
theorem stepFaultsOnIllegalWord : Obligations.StepFaultsOnIllegalWord := by
  intro s rnd hw hd
  exact (perform_step_eq_faulted_iff s s rnd _).2
    ⟨rfl, _, step_of_decode_unknown (s := { s with rndIn := some rnd }) hw hd, rfl⟩

/-- Settles O54: both timers count down, and the edge is read off the old sound timer. -/
theorem tickCountsDown : Obligations.TickCountsDown :=
  fun s => ⟨_, _, rfl, countDown_toNat s.dt, countDown_toNat s.st, tick_edge_eq_ite s, rfl⟩

/-- Settles O56: the keypad is read key by key after the write. -/
theorem keyWriteSetsOneKey : Obligations.KeyWriteSetsOneKey := by
  intro k pressed s
  refine ⟨keyWrite k pressed s, rfl, ?_, fun j hj => ?_, rfl⟩
  · rw [keyWrite_getLsbD, if_pos rfl]
  · rw [keyWrite_getLsbD, if_neg hj]

/-- Settles O58: the new PC is the next word's address. -/
theorem skipMovesPastInstruction : Obligations.SkipMovesPastInstruction :=
  fun s => ⟨skip s, rfl, s.pcNext_toNat, rfl, rfl⟩

end

