-- ==== Sys2Proof/Proofs/ResetAndHazards.lean ====
section
/-! PROOFS. The load of a program (spec/70 R263), and the one possible hang of a run, a key wait that nothing ends
(spec/70 R268, spec/60 R251). What an operation does to a pending wait is said once (`perform_on_pending_wait`). -/

namespace Sys2Proof.Machine

/-! ### The load (spec/70 R263) -/

theorem load_of_length_le {bytes : List Byte} (h : bytes.length ≤ maxProgram) (s : State) :
    load bytes s = (s.store programBase bytes, .ok) :=
  if_pos h

theorem load_of_length_gt {bytes : List Byte} (h : maxProgram < bytes.length) (s : State) :
    load bytes s = (s, .tooLarge) :=
  if_neg (Nat.not_le_of_lt h)

/-- Beside memory a load changes nothing, whether it fits or not. -/
theorem load_eq_with_mem (bytes : List Byte) (s : State) : ∃ m : Memory, (load bytes s).1 = { s with mem := m } := by
  obtain hlong | hfits := Nat.lt_or_ge maxProgram bytes.length
  · exact ⟨_, congrArg Prod.fst (load_of_length_gt hlong s)⟩
  · exact ⟨_, congrArg Prod.fst (load_of_length_le hfits s)⟩

/-! ### Steps on a pending key wait (spec/45 R212) -/

section PendingWait

variable {s t u : State}

/-- The host's step on a pending wait is a poll, which goes on. -/
theorem perform_step_ne_faulted_of_waiting (hw : s.waitActive = true) (rnd : Byte) (f : FaultReport) :
    (perform (.step rnd) s).2 ≠ .faulted f := by
  intro hf
  obtain ⟨-, g, hfault, -⟩ := (perform_step_eq_faulted_iff s _ rnd f).1 (Prod.ext rfl hf)
  obtain ⟨t, hpoll⟩ := keyWaitPoll_goesOn { s with rndIn := some rnd }
  rw [step_waiting (s := { s with rndIn := some rnd }) hw, hpoll] at hfault
  cases hfault

/-- A poll in vain takes a new sample of the keypad and blocks. -/
theorem perform_step_of_noNewKey (hw : s.waitActive = true) (hno : NoNewKey s) (rnd : Byte) :
    perform (.step rnd) s = ({ s with waitPrev := s.keys, result := .blocked, rndIn := none }, .stepped .blocked) := by
  have hpoll : step { s with rndIn := some rnd } =
      .next { s with rndIn := some rnd, waitPrev := s.keys, result := .blocked } :=
    (step_waiting (s := { s with rndIn := some rnd }) hw).trans
      (keyWaitPoll_of_none ((leastKey_newKeys_eq_none_iff { s with rndIn := some rnd }).2 hno))
  exact perform_step_of_next hpoll

/-! ### What every operation does to it (spec/60 R251) -/

/-- The key wait pending in `t` is the one of `s`: at its PC and for its register. -/
structure SameWait (s t : State) : Prop where
  active : t.waitActive = true
  pc : t.pc = s.pc
  reg : t.waitReg = s.waitReg

theorem SameWait.refl (hw : s.waitActive = true) : SameWait s s := ⟨hw, rfl, rfl⟩

theorem SameWait.trans (h : SameWait s t) (h' : SameWait t u) : SameWait s u :=
  ⟨h'.active, h'.pc.trans h.pc, h'.reg.trans h.reg⟩

/-- No operation faults on a pending wait, since a step polls. -/
theorem perform_ne_faulted_of_waiting (op : HostOp) (hw : s.waitActive = true) (f : FaultReport) :
    (perform op s).2 ≠ .faulted f := by
  cases op
  case step rnd => exact perform_step_ne_faulted_of_waiting hw rnd f
  all_goals nofun

/-- A pending wait goes on unless the operation is skip, reset or a poll that finds a new key. -/
theorem perform_on_pending_wait (op : HostOp) (hw : s.waitActive = true) :
    (op = .skip ∨ op = .reset ∨ ∃ rnd, op = .step rnd ∧ ¬ NoNewKey s) ∨ SameWait s (perform op s).1 := by
  cases op
  case skip => exact .inl (.inl rfl)
  case reset => exact .inl (.inr (.inl rfl))
  case step rnd =>
    by_cases hno : NoNewKey s
    · rw [perform_step_of_noNewKey hw hno]
      exact .inr ⟨hw, rfl, rfl⟩
    · exact .inl (.inr (.inr ⟨rnd, rfl, hno⟩))
  case load bytes =>
    obtain ⟨m, hload⟩ := load_eq_with_mem bytes s
    rw [perform, hload]
    exact .inr ⟨hw, rfl, rfl⟩
  case tick | keyWrite | fbRead => exact .inr ⟨hw, rfl, rfl⟩

/-- What does not end the wait leaves it the same. -/
theorem perform_keeps_sameWait {op : HostOp} (h : SameWait s t) (hskip : op ≠ .skip) (hreset : op ≠ .reset)
    (hstep : ∀ rnd, op = .step rnd → NoNewKey t) : SameWait s (perform op t).1 := by
  obtain (hop | hop | ⟨rnd, hop, hnew⟩) | hsame := perform_on_pending_wait op h.active
  · exact absurd hop hskip
  · exact absurd hop hreset
  · exact absurd (hstep rnd hop) hnew
  · exact h.trans hsame

/-! ### No key newly pressed (spec/45 R212, spec/60 R246) -/

theorem hostReset_noNewKey (s : State) : NoNewKey (hostReset s) := by
  intro k hk
  simp [hostReset, State.reset] at hk

theorem keyWrite_release_keeps_noNewKey (j : Reg) (hno : NoNewKey s) : NoNewKey (keyWrite j false s) := by
  intro k hk
  rw [keyWrite_getLsbD] at hk
  split at hk
  · cases hk
  · exact hno k hk

/-- No key comes to be newly pressed but by a write of it as pressed: a poll in vain samples the keypad, and reset
releases every key. -/
theorem perform_keeps_noNewKey {op : HostOp} (hw : s.waitActive = true) (hno : NoNewKey s)
    (hop : ∀ k, op ≠ .keyWrite k true) : NoNewKey (perform op s).1 := by
  cases op
  case step rnd =>
    rw [perform_step_of_noNewKey hw hno]
    exact fun k hk => hk
  case keyWrite j pressed =>
    cases pressed with
    | true => exact absurd rfl (hop j)
    | false => exact keyWrite_release_keeps_noNewKey j hno
  case load bytes =>
    obtain ⟨m, hload⟩ := load_eq_with_mem bytes s
    rw [perform, hload]
    exact hno
  case reset => exact hostReset_noNewKey s
  case tick | fbRead | skip => exact hno

end PendingWait

/-! ### The hang (spec/70 R268, spec/93 U9) -/

section Schedules

variable {ops : Nat → HostOp} {s : State}

/-- A host that never steps leaves the wait pending. -/
theorem afterOps_sameWait_of_no_step (hw : s.waitActive = true) (hends : ∀ n, ops n ≠ .skip ∧ ops n ≠ .reset)
    (hsteps : ∀ n rnd, ops n ≠ .step rnd) (k : Nat) : SameWait s (afterOps ops s k) :=
  afterOps_keeps
    (fun n _ hsame => perform_keeps_sameWait hsame (hends n).1 (hends n).2 fun rnd hop => absurd hop (hsteps n rnd))
    (.refl hw) k

/-- Where no key is newly pressed and none is pressed later, every poll is in vain: that no key is newly pressed is
kept along with the wait. -/
theorem afterOps_sameWait_of_no_press (hw : s.waitActive = true) (hends : ∀ n, ops n ≠ .skip ∧ ops n ≠ .reset)
    (hno : NoNewKey s) (hpress : ∀ n k, ops n ≠ .keyWrite k true) (k : Nat) : SameWait s (afterOps ops s k) := by
  have hkept : SameWait s (afterOps ops s k) ∧ NoNewKey (afterOps ops s k) :=
    afterOps_keeps (P := fun t => SameWait s t ∧ NoNewKey t)
      (fun n _ ⟨hsame, hnone⟩ => ⟨perform_keeps_sameWait hsame (hends n).1 (hends n).2 fun _ _ => hnone,
        perform_keeps_noNewKey hsame.active hnone (hpress n)⟩)
      ⟨.refl hw, hno⟩ k
  exact hkept.1

/-- A wait that is the same after every number of operations hangs, at its PC and for its register. -/
theorem hangs_of_sameWait (h : ∀ k, SameWait s (afterOps ops s k)) :
    Hangs ops s ∧ ∀ k, (afterOps ops s k).pc = s.pc ∧ (afterOps ops s k).waitReg = s.waitReg :=
  ⟨fun k => (h k).active, fun k => ⟨(h k).pc, (h k).reg⟩⟩

end Schedules

end Sys2Proof.Machine

open Sys2Proof Sys2Proof.Machine

/-- Settles O51: each operation on a pending wait, and an induction along the schedule for either way to hang. -/
theorem waitNothingEndsHangs : Obligations.WaitNothingEndsHangs := by
  refine ⟨fun op s hw => ⟨perform_ne_faulted_of_waiting op hw, fun hended => ?_⟩, fun ops s hw hends hquiet => ?_⟩
  · obtain hop | hsame := perform_on_pending_wait op hw
    · exact hop
    · exact absurd (hsame.active.symm.trans hended) (by decide)
  · obtain ⟨hno, hpress⟩ | hsteps := hquiet
    · exact hangs_of_sameWait (afterOps_sameWait_of_no_press hw hends hno hpress)
    · exact hangs_of_sameWait (afterOps_sameWait_of_no_step hw hends hsteps)

/-- Settles O59: a program that fits is one stored run, which its frame and its reads describe. -/
theorem loadCopiesOrFails : Obligations.LoadCopiesOrFails := by
  intro bytes s
  constructor
  · intro hfits
    have hlen : bytes.length ≤ 4096 := hfits.trans (by decide)
    have hframe : Frame s (s.store 0x200 bytes) noReg (cellsFrom 0x200 bytes.length) [] :=
      (Frame.refl s).store fun k hk => ⟨k, hk, rfl⟩
    refine ⟨s.store 0x200 bytes, ?_, fun k hk => ?_, rfl, rfl, hframe⟩
    · rw [perform, load_of_length_le hfits]
      rfl
    · exact Memory.readByte_writeBytes_inside bytes s.mem 0x200 k hlen hk
  · intro hlong
    rw [perform, load_of_length_gt hlong]

end
